-- ==== Sys2Proof/Word.lean ====
section
/-! DEFINITION. The word types of the base28 CORE: bytes, command words, response words (R9 of 00_scope.md, R70 of 30_encoding.md). -/

namespace Sys2Proof

/-- One character code: the unit of a string operand and of a token (R23, R24). -/
abbrev Byte := BitVec 8

/-- The 96-bit command word `CMD[95:0]` (R70). Bit 0 is the least significant bit (R9). -/
abbrev CmdWord := BitVec 96

/-- The 64-bit response word `RSP[63:0]` (R70). -/
abbrev RspWord := BitVec 64

/-- The 48-bit result field `R` of a response (R24). -/
abbrev ResultWord := BitVec 48

end Sys2Proof
end

