-- ==== Sys2Proof/Syntax.lean ====
section
/-! DEFINITION. The 16 commands of the base28 CORE (R78 of 30_encoding.md), one constructor per row of spec/opcode_table.json, each
with the operand fields of its format at their own widths (R23 of 10_state.md, R72 of 30_encoding.md). -/

namespace Sys2Proof

/-- A command with its operands, as R74 reads them from the command word. `a`, `b`, `w`, `n`, `len` are unsigned at their own width,
`x` is two's complement, `str` is the field `S` of eight bytes with `S[0]` lowest (R53). -/
inductive Instr where
  /-- `MUL a, b` (R101). -/
  | mul (a : BitVec 28) (b : BitVec 17)
  /-- `REM w, n` (R102). -/
  | rem (w : BitVec 45) (n : BitVec 29)
  /-- `RED28 w` (R103). -/
  | red28 (w : BitVec 45)
  /-- `CVT w` (R104). -/
  | cvt (w : BitVec 45)
  /-- `MULC a` (R121). -/
  | mulc (a : BitVec 28)
  /-- `MULI a` (R122). -/
  | muli (a : BitVec 28)
  /-- `ROR a` (R123). -/
  | ror (a : BitVec 28)
  /-- `ROL a` (R124). -/
  | rol (a : BitVec 28)
  /-- `XORM a` (R125). -/
  | xorm (a : BitVec 28)
  /-- `OBF a` (R126). -/
  | obf (a : BitVec 28)
  /-- `DEOBF a` (R127). -/
  | deobf (a : BitVec 28)
  /-- `ENC28 a` (R144). -/
  | enc28 (a : BitVec 28)
  /-- `DEC28 "s"` (R146). -/
  | dec28 (len : BitVec 4) (str : BitVec 64)
  /-- `VAL28 "s"` (R150). -/
  | val28 (len : BitVec 4) (str : BitVec 64)
  /-- `ENCODE x` (R161). -/
  | encode (x : BitVec 32)
  /-- `DECODE "s"` (R163). -/
  | decode (len : BitVec 4) (str : BitVec 64)
deriving DecidableEq, Repr

end Sys2Proof
end

