-- ==== Sys2Proof/Decode.lean ====
section
/-! DEFINITION. The decoder, total on all 2^96 command words (R77 of 30_encoding.md), rejecting by name, and the encoder, both from
the field positions, formats and opcodes of R72, R73 and R78. -/

namespace Sys2Proof

/-- The 16 opcodes of R78. -/
inductive Opcode where
  | mul | rem | red28 | cvt | mulc | muli | ror | rol | xorm | obf | deobf | enc28 | dec28 | val28 | encode | decode
deriving DecidableEq, Repr

/-- The six formats of R73. -/
inductive Format where
  | A | M | W | D | X | S
deriving DecidableEq, Repr

/-- Why a command word is no command. -/
inductive DecodeError where
  /-- A must-be-zero bit of the opcode's format is 1 (R77 step 2). Raised by `decode`; the block answers INVALID_ARGUMENT, so
  this is neither safe nor unsafe but the spec's own outcome. -/
  | mustBeZero (op : Opcode)
deriving DecidableEq, Repr

/-- The number of an opcode, `CMD[3:0]` (R78). -/
def opcodeNumber : Opcode → BitVec 4
  | .mul => 0x0
  | .rem => 0x1
  | .red28 => 0x2
  | .cvt => 0x3
  | .mulc => 0x4
  | .muli => 0x5
  | .ror => 0x6
  | .rol => 0x7
  | .xorm => 0x8
  | .obf => 0x9
  | .deobf => 0xA
  | .enc28 => 0xB
  | .dec28 => 0xC
  | .val28 => 0xD
  | .encode => 0xE
  | .decode => 0xF

/-- The format column of R78. -/
def formatOf : Opcode → Format
  | .mul => .M
  | .rem => .D
  | .red28 => .W
  | .cvt => .W
  | .mulc => .A
  | .muli => .A
  | .ror => .A
  | .rol => .A
  | .xorm => .A
  | .obf => .A
  | .deobf => .A
  | .enc28 => .A
  | .dec28 => .S
  | .val28 => .S
  | .encode => .X
  | .decode => .S

/-- The mask of all fixed bits of a format: its opcode bits and its must-be-zero bits (R73). -/
def formatMask : Format → CmdWord
  | .A => 0xFFFFFFFF_FFFFFFF0_000000FF
  | .M => 0xFFFFFE00_00FFFFF0_000000FF
  | .W => 0xFFFFFFFF_FFE00000_000000FF
  | .D => 0xFFE00000_00E00000_000000FF
  | .X => 0xFFFFFFFF_FFFFFF00_000000FF
  | .S => 0xFFFFFF00_00000000_0000000F

/-- R77 step (1): `CMD[3:0]`, bit 3 first, selects a row of R78. All 16 values are assigned. -/
def opcodeOf (w : CmdWord) : Opcode :=
  match w.getLsbD 3, w.getLsbD 2, w.getLsbD 1, w.getLsbD 0 with
  | false, false, false, false => .mul
  | false, false, false, true => .rem
  | false, false, true, false => .red28
  | false, false, true, true => .cvt
  | false, true, false, false => .mulc
  | false, true, false, true => .muli
  | false, true, true, false => .ror
  | false, true, true, true => .rol
  | true, false, false, false => .xorm
  | true, false, false, true => .obf
  | true, false, true, false => .deobf
  | true, false, true, true => .enc28
  | true, true, false, false => .dec28
  | true, true, false, true => .val28
  | true, true, true, false => .encode
  | true, true, true, true => .decode

/-! The operand fields of R72, each from its lowest bit and its width. -/

/-- `LEN = CMD[7:4]`. -/
def fieldLEN (w : CmdWord) : BitVec 4 := w.extractLsb' 4 4
/-- `A = CMD[35:8]`. -/
def fieldA (w : CmdWord) : BitVec 28 := w.extractLsb' 8 28
/-- `B = CMD[72:56]`. -/
def fieldB (w : CmdWord) : BitVec 17 := w.extractLsb' 56 17
/-- `W = CMD[52:8]`. -/
def fieldW (w : CmdWord) : BitVec 45 := w.extractLsb' 8 45
/-- `N = CMD[84:56]`. -/
def fieldN (w : CmdWord) : BitVec 29 := w.extractLsb' 56 29
/-- `X = CMD[39:8]`. -/
def fieldX (w : CmdWord) : BitVec 32 := w.extractLsb' 8 32
/-- `S = CMD[71:8]`. -/
def fieldS (w : CmdWord) : BitVec 64 := w.extractLsb' 8 64

/-- The command of an opcode with the operands its format reads from the word (R72, R74). -/
def withOperands (op : Opcode) (w : CmdWord) : Instr :=
  match op with
  | .mul => .mul (fieldA w) (fieldB w)
  | .rem => .rem (fieldW w) (fieldN w)
  | .red28 => .red28 (fieldW w)
  | .cvt => .cvt (fieldW w)
  | .mulc => .mulc (fieldA w)
  | .muli => .muli (fieldA w)
  | .ror => .ror (fieldA w)
  | .rol => .rol (fieldA w)
  | .xorm => .xorm (fieldA w)
  | .obf => .obf (fieldA w)
  | .deobf => .deobf (fieldA w)
  | .enc28 => .enc28 (fieldA w)
  | .dec28 => .dec28 (fieldLEN w) (fieldS w)
  | .val28 => .val28 (fieldLEN w) (fieldS w)
  | .encode => .encode (fieldX w)
  | .decode => .decode (fieldLEN w) (fieldS w)

/-- The decoder (R77 steps 1 and 2): a word is a command of its opcode when `c AND mask = op` (R73), and is otherwise rejected by
the name of the opcode whose must-be-zero bits it breaks. Step (3), the check of `LEN`, is the command's own. -/
def decode (w : CmdWord) : Except DecodeError Instr :=
  if w &&& formatMask (formatOf (opcodeOf w)) = (opcodeNumber (opcodeOf w)).setWidth 96 then
    .ok (withOperands (opcodeOf w) w)
  else
    .error (.mustBeZero (opcodeOf w))

/-- The decoder on a word numbered as spec/opcode_table.json numbers it: bit 0 is `CMD[0]` (R85), and the bits from `nbits` up
are zero (log entry 9). No command is longer than 96 bits (R70). -/
def decodeTableWord (nbits w : Nat) : Option Instr :=
  if nbits ≤ 96 then
    match decode (BitVec.ofNat 96 (w % 2 ^ nbits)) with
    | .ok i => some i
    | .error _ => none
  else
    none

/-! The encoder: a word has its fields at their places (R72) and zeros elsewhere (the diagrams of R73). -/

/-- A field's value with its lowest bit at `CMD[lo]`. -/
def place {n : Nat} (lo : Nat) (v : BitVec n) : CmdWord := v.setWidth 96 <<< lo

def wordA (op : BitVec 4) (a : BitVec 28) : CmdWord := place 0 op ||| place 8 a
def wordM (op : BitVec 4) (a : BitVec 28) (b : BitVec 17) : CmdWord := place 0 op ||| place 8 a ||| place 56 b
def wordW (op : BitVec 4) (w : BitVec 45) : CmdWord := place 0 op ||| place 8 w
def wordD (op : BitVec 4) (w : BitVec 45) (n : BitVec 29) : CmdWord := place 0 op ||| place 8 w ||| place 56 n
def wordX (op : BitVec 4) (x : BitVec 32) : CmdWord := place 0 op ||| place 8 x
def wordS (op : BitVec 4) (len : BitVec 4) (str : BitVec 64) : CmdWord := place 0 op ||| place 4 len ||| place 8 str

/-- The command word of a command (R72, R73, R78). -/
def encode : Instr → CmdWord
  | .mul a b => wordM 0x0 a b
  | .rem w n => wordD 0x1 w n
  | .red28 w => wordW 0x2 w
  | .cvt w => wordW 0x3 w
  | .mulc a => wordA 0x4 a
  | .muli a => wordA 0x5 a
  | .ror a => wordA 0x6 a
  | .rol a => wordA 0x7 a
  | .xorm a => wordA 0x8 a
  | .obf a => wordA 0x9 a
  | .deobf a => wordA 0xA a
  | .enc28 a => wordA 0xB a
  | .dec28 len str => wordS 0xC len str
  | .val28 len str => wordS 0xD len str
  | .encode x => wordX 0xE x
  | .decode len str => wordS 0xF len str

end Sys2Proof
end

