-- ==== Sys2Proof/Config.lean ====
section
/-! DEFINITION. What an implementation of the base28 CORE fixes: the constant set `CFG` (R5, R6 of 00_scope.md; R27, R28 of
10_state.md) and the interface's two bounds (R8, R104). The spec leaves no result open, so this file holds no free value. -/

namespace Sys2Proof

/-- The constant set `CFG` of R5, in the order of R28's table. It is an immutable configuration value (R6): no command reads one as
such or writes one (R7). -/
structure Cfg where
  /-- `BITS`, the width of the field the rotator rotates in. -/
  bits : Nat
  /-- `MODULUS`. -/
  modulus : Nat
  /-- `MAXVAL`, the greatest Domain Integer. -/
  maxval : Nat
  /-- `ROT`, the rotation amount. -/
  rot : Nat
  /-- `XOR_MASK`. -/
  xorMask : Nat
  /-- `COPRIME`. -/
  coprime : Nat
  /-- `INVERSE`, the precomputed inverse of `COPRIME` (R130). -/
  inverse : Nat
  /-- `ALPHABET`, index 0 first (R27). -/
  alphabet : List Byte
  /-- `RADIX`. -/
  radix : Nat
  /-- `TOKLEN`. -/
  toklen : Nat
deriving DecidableEq, Repr

/-- The codes of the lower-case letters `a`..`z`, the only ones that case folding changes (R141). -/
abbrev LowerCase (c : Byte) : Prop := 0x61 ≤ c.toNat ∧ c.toNat ≤ 0x7A

/-- A well-formed `CFG`, condition by condition as R6 lists them. -/
abbrev Cfg.WellFormed (c : Cfg) : Prop :=
  c.modulus = 2 ^ c.bits ∧
  c.maxval = c.modulus - 1 ∧
  c.rot < c.bits ∧
  c.xorMask < c.modulus ∧
  (c.coprime % 2 = 1 ∧ c.coprime < 2 ^ 17) ∧
  (0 < c.inverse ∧ c.inverse < c.modulus) ∧
  c.coprime * c.inverse % c.modulus = 1 ∧
  (c.alphabet.length = c.radix ∧ c.alphabet.Nodup ∧ ∀ b ∈ c.alphabet, ¬ LowerCase b) ∧
  c.modulus ≤ c.radix ^ c.toklen

/-- The constant set has the sizes that the command and response words are laid out for: a 28-bit field (R8's `AW`, R10's `rotr28`),
28 symbols (R144's `div 28`) and tokens of six characters (R24's field `R`). DESIGN CHOICE, safe (log entry 2): R6 alone would
admit other sizes, for which no rule says what the fixed fields carry. -/
abbrev Cfg.FitsInterface (c : Cfg) : Prop := c.bits = 28 ∧ c.radix = 28 ∧ c.toklen = 6

/-- The constant sets under which the block answers commands (R185: an ill-formed `CFG` is refused). -/
abbrev Cfg.Usable (c : Cfg) : Prop := c.WellFormed ∧ c.FitsInterface

/-- The alphabet ROM of R27, `BCDFGHJKMNPQRSTVWXYZ23456789` in ASCII codes, which R27 states (the spec itself takes them
from general knowledge: K1 of 93_implementation_defined.md). -/
def alphabetRom : List Byte :=
  [0x42, 0x43, 0x44, 0x46, 0x47, 0x48, 0x4A, 0x4B, 0x4D, 0x4E, 0x50, 0x51, 0x52, 0x53,
   0x54, 0x56, 0x57, 0x58, 0x59, 0x5A, 0x32, 0x33, 0x34, 0x35, 0x36, 0x37, 0x38, 0x39]

/-- The constant set of this hardware (R5). -/
def base28 : Cfg where
  bits := 28
  modulus := 268435456
  maxval := 268435455
  rot := 7
  xorMask := 79301298
  coprime := 65521
  inverse := 233836817
  alphabet := alphabetRom
  radix := 28
  toklen := 6

/-- `SMAX`, the greatest number of characters the field `S` can hold (R8). U11 of 93_implementation_defined.md offers it
as a parameter; R8 fixes it for this hardware. -/
abbrev smax : Nat := 8

/-- The greatest value of the native type `CVT` converts to (R104). U1 of 93_implementation_defined.md offers it as a
parameter; R104 fixes it for this hardware. -/
abbrev nativeMax : Nat := 2147483647

end Sys2Proof
end

