-- ==== Sys2Proof/Machine/State.lean ====
section
/-! DEFINITION. The state of the base28 CORE: the elements of R20 of 10_state.md, all as plain data, and the state after reset
(R34 of 10_state.md, R190 of 70_reset_and_hazards.md). -/

namespace Sys2Proof.Machine

/-- The two kinds of synchronous exception; an exception records nothing but its kind (R170, R173). -/
inductive ErrorKind where
  /-- `INVALID_ARGUMENT`, status 1 (R172). -/
  | invalidArgument
  /-- `MALFORMED_INPUT`, status 2 (R176). -/
  | malformedInput
deriving DecidableEq, Repr

/-- The content of a response word (R24, R75) as the sum type R35 asks for: an error response has no `FLAG` and no `R`, and status 3
does not exist (log entry 6). -/
inductive Response where
  /-- `STATUS = OK` with the fields `FLAG` and `R`. -/
  | ok (flag : Bool) (result : ResultWord)
  /-- `STATUS` other than `OK`. -/
  | error (kind : ErrorKind)
deriving DecidableEq, Repr

/-- The state of one block and its one command port. The block has no register, program counter, flag, mode or memory (R20 to R22,
R25, R29 to R31, R50). -/
structure State where
  /-- The constant ROM `CFG` (R20, R28). No step writes it (R7); R6's argument of the step function stands here (log entry 1). -/
  rom : Cfg
  /-- The command words the host has presented and the block has not answered, oldest first; the first is the `CMD` of R20, the
  others are the further commands R194 lets the host issue (log entry 3). -/
  pending : List CmdWord
  /-- The responses the block has returned and the host has not taken, oldest first: the `RSP` of R20, each delivered once (R36,
  log entry 5). No command reads them (R21). -/
  answered : List Response
deriving DecidableEq, Repr

/-- Reasons to stop with a fault: none. No rule stops the block; every error is a response (R170, R185; log entry 10). -/
inductive Fault
deriving DecidableEq, Repr

/-- Situations the spec gives no meaning to. -/
inductive Refusal where
  /-- An instruction not modelled yet; `exec` has no such arm. Safe. -/
  | notModelled (mnemonic : String)
  /-- A command is to be answered under a `CFG` that breaks a condition of R6. R185: a model should refuse it. Raised by `answer`.
  Safe. -/
  | illFormedCfg
  /-- A command is to be answered under a well-formed `CFG` whose sizes are not those of the command and response words. Raised by
  `answer`. Safe (log entry 2). -/
  | cfgOutsideInterface
  /-- A response is to be delivered and no command is pending: a response belongs to exactly one command (R36). Raised by `answer`;
  never by `step`. Safe (log entry 12). -/
  | noCommand
  /-- The host reads the response port outside a response (R36). Raised by `receive`. Safe. -/
  | noResponse
  /-- The host reads `FLAG` or `R` of an error response (R35). Raised by `readFlag` and `readResult`. Safe. -/
  | noValue
  /-- The host resets the block while a command is outstanding (R192). Raised by `hostReset`. R192 calls this assumption about the
  host one that errs toward proving: unsafe (log entry 8). -/
  | resetWhileOutstanding
deriving DecidableEq, Repr

/-- The block right after reset: the constants of R5 and R27, nothing presented, nothing answered (R34, R190). -/
def State.reset : State where
  rom := base28
  pending := []
  answered := []

end Sys2Proof.Machine
end

