-- ==== Sys2Proof/Machine/Ops.lean ====
section
/-! DEFINITION. The operations every command shares: delivering a response, completing, and raising an exception (R11, R170, R175,
R177). There is no memory and no register to read or write (R21, R50). -/

namespace Sys2Proof.Machine

/-- The three outcomes of one step of this block. -/
abbrev Result := Host.Outcome State Fault Refusal

/-- Deliver a response to the oldest pending command: exactly one response per command, in command order, and nothing else changes
(R57, R175). Refused under a `CFG` that is ill formed (R185) or of other sizes (log entry 2). -/
def answer (r : Response) (s : State) : Result :=
  if s.rom.WellFormed then
    if s.rom.FitsInterface then
      match s.pending with
      | [] => .refused .noCommand
      | _ :: rest => .next { s with pending := rest, answered := s.answered ++ [r] }
    else .refused .cfgOutsideInterface
  else .refused .illFormedCfg

/-- `raise` of R11, the one way an exception is taken: the response carries the kind and no result (R35, R173), and "trap entry" is
its delivery by `answer`; nothing is saved and control goes nowhere (R177). There is no return from it (R179). -/
def raise (kind : ErrorKind) : Response := .error kind

/-- `rsp.R <- v` of R11 in a command that raises nothing: status OK, `FLAG` 0 (R26), the number zero-extended to 48 bits (R24). -/
def number (v : Nat) : Response := .ok false (BitVec.ofNat 48 v)

/-- Characters packed with the first in the lowest byte (R53, R54). -/
def packChars : List Byte → Nat
  | [] => 0
  | c :: cs => c.toNat + 256 * packChars cs

/-- `rsp.T <- s` of R11: token character `k` is `R[8k+7:8k]` (R54). -/
def token (cs : List Byte) : Response := .ok false (BitVec.ofNat 48 (packChars cs))

end Sys2Proof.Machine
end

