-- ==== Sys2Proof/Machine/Units.lean ====
section
/-! DEFINITION. The six function units of R1 of 00_scope.md as exact functions on natural numbers (R10, R105): multiplier,
reduction, inverse engine, rotator, XOR stage, base-28 encoder and decoder. The constants come from the ROM. -/

namespace Sys2Proof.Machine

/-! ## Exact arithmetic (40_exact_arithmetic.md) -/

/-- The exact product (R101). -/
def product (a b : Nat) : Nat := a * b

/-- Reduction modulo `MODULUS` (R103). -/
def reduce (c : Cfg) (v : Nat) : Nat := v % c.modulus

/-! ## Obfuscation permutation (41_permutation.md) -/

/-- The forward modular multiplication: `(x * COPRIME) mod MODULUS` (R121). -/
def mulForward (c : Cfg) (x : Nat) : Nat := reduce c (product x c.coprime)

/-- The inverse engine: `(x * INVERSE) mod MODULUS`, of the exact product (R122). -/
def mulInverse (c : Cfg) (x : Nat) : Nat := reduce c (product x c.inverse)

/-- `rotr28` of R10 in a field of `bits` bits. -/
def rotr (bits k v : Nat) : Nat := v / 2 ^ k + v % 2 ^ k * 2 ^ (bits - k)

/-- `rotl28` of R10 in a field of `bits` bits. -/
def rotl (bits k v : Nat) : Nat := v * 2 ^ k % 2 ^ bits + v / 2 ^ (bits - k)

/-- Rotation right by `ROT` within the field (R123). -/
def rotateRight (c : Cfg) (v : Nat) : Nat := rotr c.bits c.rot v

/-- Rotation left by `ROT` within the field (R124). -/
def rotateLeft (c : Cfg) (v : Nat) : Nat := rotl c.bits c.rot v

/-- The XOR masking stage (R125). -/
def xorStage (c : Cfg) (v : Nat) : Nat := v ^^^ c.xorMask

/-- `obfuscate`, Domain Integer to Permuted Integer (R126). -/
def obfuscate (c : Cfg) (x : Nat) : Nat := xorStage c (rotateRight c (mulForward c x))

/-- `deobfuscate`, Permuted Integer to Domain Integer (R127). -/
def deobfuscate (c : Cfg) (y : Nat) : Nat := mulInverse c (rotateLeft c (xorStage c y))

/-! ## Base-28 text codec (42_base28_text.md) -/

/-- Case folding of one byte (R141). -/
def upper (b : Byte) : Byte := if LowerCase b then b - 0x20 else b

/-- The position of a code in a symbol table, counting from `i`. -/
def position (b : Byte) : Nat → List Byte → Option Nat
  | _, [] => none
  | i, c :: cs => if b = c then some i else position b (i + 1) cs

/-- `index(c)` of R142: the digit of a symbol, case-insensitively, or none. -/
def index (c : Cfg) (b : Byte) : Option Nat := position (upper b) 0 c.alphabet

/-- `ALPHABET[i]` (R11). It is read only for `i < RADIX`, where the table has an entry. -/
def symbol (c : Cfg) (i : Nat) : Byte := c.alphabet.getD i 0

/-- The first loop of R144: while the number is not 0, prepend the symbol of its last digit and divide. The first argument bounds
the number of turns. -/
def prependDigits (c : Cfg) : Nat → Nat → List Byte → List Byte
  | 0, _, cs => cs
  | turns + 1, n, cs => if n = 0 then cs else prependDigits c turns (n / c.radix) (symbol c (n % c.radix) :: cs)

/-- The second loop of R144: prepend `ALPHABET[0]` until there are `TOKLEN` symbols. -/
def padToken (c : Cfg) (cs : List Byte) : List Byte := List.replicate (c.toklen - cs.length) (symbol c 0) ++ cs

/-- `encodeBase28` (R144). `TOKLEN` turns of the first loop suffice for every number below `RADIX^TOKLEN`, as R144 says (log
entry 11). -/
def encodeText (c : Cfg) (n : Nat) : List Byte := padToken c (prependDigits c c.toklen n [])

/-- The digits of a string, most significant first, or none when some character is no symbol (R146, R52). -/
def digits (c : Cfg) : List Byte → Option (List Nat)
  | [] => some []
  | b :: bs =>
    match index c b, digits c bs with
    | some d, some ds => some (d :: ds)
    | _, _ => none

/-- The accumulation of R146: `total <- total * 28 + digit`. -/
def horner (c : Cfg) (ds : List Nat) : Nat := ds.foldl (fun total d => total * c.radix + d) 0

/-- `validateBase28` (R150): exactly `TOKLEN` characters, all of them symbols. -/
def isToken (c : Cfg) (cs : List Byte) : Bool := decide (cs.length = c.toklen) && (digits c cs).isSome

end Sys2Proof.Machine
end

