-- ==== Sys2Proof/Machine/Arithmetic.lean ====
section
/-! DEFINITION. MUL, REM, RED28, CVT (40_exact_arithmetic.md). -/

namespace Sys2Proof.Machine

/-- R101. -/
def mulResponse (a : BitVec 28) (b : BitVec 17) : Response := number (product a.toNat b.toNat)

/-- R102: the zero test comes first. -/
def remResponse (w : BitVec 45) (n : BitVec 29) : Response :=
  if n = 0#29 then raise .invalidArgument else number (w.toNat % n.toNat)

/-- R103. -/
def red28Response (c : Cfg) (w : BitVec 45) : Response := number (reduce c w.toNat)

/-- R104: fails, never saturates. -/
def cvtResponse (w : BitVec 45) : Response :=
  if nativeMax < w.toNat then raise .invalidArgument else number w.toNat

/-- `MUL a, b` (R101). -/
def execMul (a : BitVec 28) (b : BitVec 17) (s : State) : Result := answer (mulResponse a b) s

/-- `REM w, n` (R102). -/
def execRem (w : BitVec 45) (n : BitVec 29) (s : State) : Result := answer (remResponse w n) s

/-- `RED28 w` (R103). -/
def execRed28 (w : BitVec 45) (s : State) : Result := answer (red28Response s.rom w) s

/-- `CVT w` (R104). -/
def execCvt (w : BitVec 45) (s : State) : Result := answer (cvtResponse w) s

end Sys2Proof.Machine
end

