-- ==== Sys2Proof/Machine/Flags.lean ====
section
/-! DEFINITION. `STATUS` and `FLAG`, the only condition codes of the block, and the response word they stand in (R24 to R26 of
10_state.md; R75, R76 of 30_encoding.md). -/

namespace Sys2Proof.Machine

/-- `rsp.FLAG <- b` with `R = 0`: the answer of a validation (R26, R150). -/
def flagged (b : Bool) : Response := .ok b 0

/-- The status code of an error kind (R76). -/
def errorCode : ErrorKind → BitVec 2
  | .invalidArgument => 1
  | .malformedInput => 2

/-- `STATUS`, `RSP[1:0]` (R75, R76): every response has one. -/
def readStatus : Response → BitVec 2
  | .ok _ _ => 0
  | .error kind => errorCode kind

/-- `FLAG` as the host reads it; an error response has none (R35). -/
def readFlag : Response → Except Refusal Bool
  | .ok flag _ => .ok flag
  | .error _ => .error .noValue

/-- `R` as the host reads it; an error response has none (R35). -/
def readResult : Response → Except Refusal ResultWord
  | .ok _ r => .ok r
  | .error _ => .error .noValue

/-- The 64-bit response word of R75. For an error response the bits of `FLAG` and `R` are printed as zero, which R75 calls a
printing convention only: they hold no value (log entry 6). -/
def printWord : Response → RspWord
  | .ok flag r => r.setWidth 64 <<< 16 ||| (BitVec.ofBool flag).setWidth 64 <<< 2
  | .error kind => (errorCode kind).setWidth 64

/-- What a 64-bit word on the response port says (R75, R76): status 3 and nonzero reserved bits are never produced, and in an error
response the bits of `FLAG` and `R` are not looked at. -/
def readWord (w : RspWord) : Option Response :=
  if w.extractLsb' 3 13 = 0 then
    match w.getLsbD 1, w.getLsbD 0 with
    | false, false => some (.ok (w.getLsbD 2) (w.extractLsb' 16 48))
    | false, true => some (.error .invalidArgument)
    | true, false => some (.error .malformedInput)
    | true, true => none
  else none

end Sys2Proof.Machine
end

