-- ==== Sys2Proof/Machine/Operands.lean ====
section
/-! DEFINITION. Operand assembly (R74 of 30_encoding.md): the signed reading of `X` and the characters of the string operand `S`
(R53 of 20_memory.md). The unsigned operands `A`, `B`, `W`, `N` and `LEN` are their fields' numbers. -/

namespace Sys2Proof.Machine

/-- `sext_32(CMD[39:8])`, the only signed operand (R74). -/
abbrev signedX (x : BitVec 32) : Int := x.toInt

/-- Byte `S[k]` of the string operand (R53). -/
def charAt (str : BitVec 64) (k : Nat) : Byte := str.extractLsb' (8 * k) 8

/-- The characters `S[0]`, ..., `S[n-1]`, the only ones that are read (R53, R74). -/
def chars (n : Nat) (str : BitVec 64) : List Byte := (List.range n).map (charAt str)

end Sys2Proof.Machine
end

