-- ==== Sys2Proof/Machine/Text.lean ====
section
/-! DEFINITION. ENC28, DEC28, VAL28 (42_base28_text.md). DEC28 is lenient about length and VAL28 strict (R147); nothing is
trimmed (R148). -/

namespace Sys2Proof.Machine

/-- R144. -/
def enc28Response (c : Cfg) (a : BitVec 28) : Response := token (encodeText c a.toNat)

/-- R146, its checks in the order written. -/
def dec28Response (c : Cfg) (len : BitVec 4) (str : BitVec 64) : Response :=
  if smax < len.toNat then raise .invalidArgument
  else if len = 0#4 then raise .malformedInput
  else
    match digits c (chars len.toNat str) with
    | none => raise .malformedInput
    | some ds => number (horner c ds)

/-- `VAL28(cmd.LEN, S)` of R150 and R163: no character is read unless the length is `TOKLEN`. -/
def validToken (c : Cfg) (len : BitVec 4) (str : BitVec 64) : Bool :=
  decide (len.toNat = c.toklen) && isToken c (chars c.toklen str)

/-- R150. -/
def val28Response (c : Cfg) (len : BitVec 4) (str : BitVec 64) : Response := flagged (validToken c len str)

/-- `ENC28 a` (R144). -/
def execEnc28 (a : BitVec 28) (s : State) : Result := answer (enc28Response s.rom a) s

/-- `DEC28 "s"` (R146). -/
def execDec28 (len : BitVec 4) (str : BitVec 64) (s : State) : Result := answer (dec28Response s.rom len str) s

/-- `VAL28 "s"` (R150). -/
def execVal28 (len : BitVec 4) (str : BitVec 64) (s : State) : Result := answer (val28Response s.rom len str) s

end Sys2Proof.Machine
end

