-- ==== Sys2Proof/Machine/IdCodec.lean ====
section
/-! DEFINITION. ENCODE and DECODE, the composed commands that own range validation (43_id_codec.md, R160). -/

namespace Sys2Proof.Machine

/-- R161: the range check comes before the permutation. -/
def encodeResponse (c : Cfg) (x : BitVec 32) : Response :=
  if signedX x < 0 ∨ (c.maxval : Int) < signedX x then raise .invalidArgument
  else token (encodeText c (obfuscate c (signedX x).toNat))

/-- R163: the strict check, then the value, then its range, then the permutation. -/
def decodeResponse (c : Cfg) (len : BitVec 4) (str : BitVec 64) : Response :=
  if validToken c len str then
    match digits c (chars c.toklen str) with
    | none => raise .malformedInput
    | some ds =>
      if c.maxval < horner c ds then raise .malformedInput
      else number (deobfuscate c (horner c ds))
  else raise .malformedInput

/-- `ENCODE x` (R161). -/
def execEncode (x : BitVec 32) (s : State) : Result := answer (encodeResponse s.rom x) s

/-- `DECODE "s"` (R163). -/
def execDecode (len : BitVec 4) (str : BitVec 64) (s : State) : Result := answer (decodeResponse s.rom len str) s

end Sys2Proof.Machine
end

