-- ==== Sys2Proof/Machine/Permutation.lean ====
section
/-! DEFINITION. MULC, MULI, ROR, ROL, XORM, OBF, DEOBF (41_permutation.md). None of them can fail (R120). -/

namespace Sys2Proof.Machine

/-- R121. -/
def mulcResponse (c : Cfg) (a : BitVec 28) : Response := number (mulForward c a.toNat)

/-- R122. -/
def muliResponse (c : Cfg) (a : BitVec 28) : Response := number (mulInverse c a.toNat)

/-- R123. -/
def rorResponse (c : Cfg) (a : BitVec 28) : Response := number (rotateRight c a.toNat)

/-- R124. -/
def rolResponse (c : Cfg) (a : BitVec 28) : Response := number (rotateLeft c a.toNat)

/-- R125. -/
def xormResponse (c : Cfg) (a : BitVec 28) : Response := number (xorStage c a.toNat)

/-- R126. -/
def obfResponse (c : Cfg) (a : BitVec 28) : Response := number (obfuscate c a.toNat)

/-- R127. -/
def deobfResponse (c : Cfg) (a : BitVec 28) : Response := number (deobfuscate c a.toNat)

/-- `MULC a` (R121). -/
def execMulc (a : BitVec 28) (s : State) : Result := answer (mulcResponse s.rom a) s

/-- `MULI a` (R122). -/
def execMuli (a : BitVec 28) (s : State) : Result := answer (muliResponse s.rom a) s

/-- `ROR a` (R123). -/
def execRor (a : BitVec 28) (s : State) : Result := answer (rorResponse s.rom a) s

/-- `ROL a` (R124). -/
def execRol (a : BitVec 28) (s : State) : Result := answer (rolResponse s.rom a) s

/-- `XORM a` (R125). -/
def execXorm (a : BitVec 28) (s : State) : Result := answer (xormResponse s.rom a) s

/-- `OBF a` (R126). -/
def execObf (a : BitVec 28) (s : State) : Result := answer (obfResponse s.rom a) s

/-- `DEOBF a` (R127). -/
def execDeobf (a : BitVec 28) (s : State) : Result := answer (deobfResponse s.rom a) s

end Sys2Proof.Machine
end

