-- ==== Sys2Proof/Machine/Dispatch.lean ====
section
/-! DEFINITION. The meaning of each command (R78 of 30_encoding.md), one arm per constructor. -/

namespace Sys2Proof.Machine

def exec (i : Instr) (s : State) : Host.Outcome State Fault Refusal :=
  match i with
  | .mul a b => Sys2Proof.Machine.execMul a b s
  | .rem w n => Sys2Proof.Machine.execRem w n s
  | .red28 w => Sys2Proof.Machine.execRed28 w s
  | .cvt w => Sys2Proof.Machine.execCvt w s
  | .mulc a => Sys2Proof.Machine.execMulc a s
  | .muli a => Sys2Proof.Machine.execMuli a s
  | .ror a => Sys2Proof.Machine.execRor a s
  | .rol a => Sys2Proof.Machine.execRol a s
  | .xorm a => Sys2Proof.Machine.execXorm a s
  | .obf a => Sys2Proof.Machine.execObf a s
  | .deobf a => Sys2Proof.Machine.execDeobf a s
  | .enc28 a => Sys2Proof.Machine.execEnc28 a s
  | .dec28 len str => Sys2Proof.Machine.execDec28 len str s
  | .val28 len str => Sys2Proof.Machine.execVal28 len str s
  | .encode x => Sys2Proof.Machine.execEncode x s
  | .decode len str => Sys2Proof.Machine.execDecode len str s

end Sys2Proof.Machine
end

