-- ==== Sys2Proof/Machine/Port.lean ====
section
/-! DEFINITION. The command port: which word the block takes next and how it answers a malformed one, and the host's moves
(R177 of 60_exceptions.md, R190, R192, R194 of 70_reset_and_hazards.md). -/

namespace Sys2Proof.Machine

/-- The command word the block answers next: the oldest one presented (R57). -/
def nextCommand (s : State) : Option CmdWord := s.pending.head?

/-- The response to a word with a must-be-zero bit set; nothing else of the word is examined (R77 step 2, R174 level 1). -/
def answerMalformed (s : State) : Result := answer (raise .invalidArgument) s

/-- With no command presented the block is ready and does nothing; it never acts on its own (R13, R199; log entry 4). -/
def idle (s : State) : Result := .next s

/-- Host move: present a command word, any of the 2^96, whether or not earlier ones have been answered (R194, R195). -/
def present (w : CmdWord) (s : State) : State := { s with pending := s.pending ++ [w] }

/-- Host move: take the oldest response not yet taken. Each is delivered once, in command order, and the port holds no value
otherwise (R36, R57). -/
def receive (s : State) : Except Refusal (Response × State) :=
  match s.answered with
  | [] => .error .noResponse
  | r :: rest => .ok (r, { s with answered := rest })

/-- Host move: reset. There is nothing to set (R190), and a reset while a command is outstanding, that is presented and its response
not delivered, has no meaning (R192; log entry 8). -/
def hostReset (s : State) : Except Refusal State :=
  if s.pending = [] ∧ s.answered = [] then .ok s else .error .resetWhileOutstanding

end Sys2Proof.Machine
end

