-- ==== Sys2Proof/Machine/Step.lean ====
section
/-! DEFINITION. One step of the block: it answers the oldest command presented (R13 of 00_scope.md, R57 of 20_memory.md), decoding
its word first (R77 of 30_encoding.md). -/

namespace Sys2Proof.Machine

/-- One atomic step (R12, R57). -/
def step (s : State) : Host.Outcome State Fault Refusal :=
  match nextCommand s with
  | none => idle s
  | some w =>
    match decode w with
    | .ok i => exec i s
    | .error _ => answerMalformed s

/-- `s` with a command word, given as spec/opcode_table.json numbers its bits and zero from bit `nbits` up, presented ahead of all
others, so that the next step answers it (R22: the host holds the program; log entry 9). -/
def State.withFetchWord (s : State) (nbits w : Nat) : State :=
  { s with pending := BitVec.ofNat 96 (w % 2 ^ nbits) :: s.pending }

end Sys2Proof.Machine
end

