-- ==== Sys2Proof/Machine/Assembler.lean ====
section
/-! DEFINITION. The assembler notation of R81 and R82 of 30_encoding.md: one command a line, B28's operation names as aliases, and
responses as text. The host writes programs in it (R22 of 10_state.md); the block never sees it. How white space may stand is a DESIGN
CHOICE (log entry 14). -/

namespace Sys2Proof.Machine

/-- An operand as a line writes it (R81): a number, a quoted string, or `%k`, the result of the response to line `k`. -/
inductive Operand where
  | num (v : Int)
  | str (cs : List Byte)
  | ref (k : Nat)
deriving DecidableEq, Repr

/-- The mnemonics of R78 and the aliases of R82. -/
def opcodeNames : List (String × Opcode) :=
  [("MUL", .mul), ("REM", .rem), ("RED28", .red28), ("CVT", .cvt), ("MULC", .mulc), ("MULI", .muli), ("ROR", .ror),
   ("ROL", .rol), ("XORM", .xorm), ("OBF", .obf), ("DEOBF", .deobf), ("ENC28", .enc28), ("DEC28", .dec28),
   ("VAL28", .val28), ("ENCODE", .encode), ("DECODE", .decode)] ++
  [("multiply", .mul), ("remainder", .rem), ("toFixedWidthInteger", .cvt), ("obfuscate", .obf), ("deobfuscate", .deobf),
   ("encodeBase28", .enc28), ("decodeBase28", .dec28), ("validateBase28", .val28), ("encode", .encode), ("decode", .decode)]

/-- The command a name stands for. -/
def opcodeNamed (name : List Char) : Option Opcode :=
  (opcodeNames.find? (fun row => row.1.toList == name)).map (·.2)

/-- A number for an unsigned field of `n` bits; a value the field cannot hold is not presentable (R23; U2, U3, U7 of
93_implementation_defined.md). -/
def unsignedField (n : Nat) (v : Int) : Option (BitVec n) :=
  if 0 ≤ v ∧ v < 2 ^ n then some (BitVec.ofInt n v) else none

/-- A number for the signed field `X` (R74). -/
def signedField (v : Int) : Option (BitVec 32) :=
  if -2 ^ 31 ≤ v ∧ v < 2 ^ 31 then some (BitVec.ofInt 32 v) else none

/-- A string for the fields `LEN` and `S`: its length, and its first eight characters packed (R53, R81). A length that `LEN` cannot
hold is not presentable (R80). -/
def stringFields (cs : List Byte) : Option (BitVec 4 × BitVec 64) :=
  if cs.length < 16 then some (BitVec.ofNat 4 cs.length, BitVec.ofNat 64 (packChars (cs.take smax))) else none

/-- `%k` as the host copies it (R81, R54, R196): the field `R` of an OK response, as a number for a numeric operand. An error
response has no result to copy (R35). Lines count from 1. -/
def resultOf (rs : List Response) (k : Nat) : Option ResultWord :=
  match k with
  | 0 => none
  | j + 1 =>
    match rs[j]? with
    | some (.ok _ r) => some r
    | _ => none

/-- The number an operand stands for, with the responses to the earlier lines. -/
def operandNumber (rs : List Response) : Operand → Option Int
  | .num v => some v
  | .str _ => none
  | .ref k => (resultOf rs k).map (fun r => (r.toNat : Int))

/-- The string an operand stands for; `R[47:0]` of a token is copied into `CMD[55:8]` with `LEN` = 6 (R54). DESIGN CHOICE, safe (log
entry 16): R54 says so of the responses of `ENC28` and `ENCODE` alone, and the model copies the `R` of every OK response with that
`LEN`, a number's and `VAL28`'s too. -/
def operandString (rs : List Response) : Operand → Option (BitVec 4 × BitVec 64)
  | .num _ => none
  | .str cs => stringFields cs
  | .ref k => (resultOf rs k).map (fun r => (6, r.setWidth 64))

/-- The command of an opcode with written operands, by the syntax table of R81. -/
def assemble (rs : List Response) (op : Opcode) (ops : List Operand) : Option Instr :=
  match formatOf op, ops with
  | .A, [p] => do
    let a ← unsignedField 28 (← operandNumber rs p)
    return withOperands op (wordA 0 a)
  | .M, [p, q] => do
    let a ← unsignedField 28 (← operandNumber rs p)
    let b ← unsignedField 17 (← operandNumber rs q)
    return withOperands op (wordM 0 a b)
  | .W, [p] => do
    let w ← unsignedField 45 (← operandNumber rs p)
    return withOperands op (wordW 0 w)
  | .D, [p, q] => do
    let w ← unsignedField 45 (← operandNumber rs p)
    let n ← unsignedField 29 (← operandNumber rs q)
    return withOperands op (wordD 0 w n)
  | .X, [p] => do
    let x ← signedField (← operandNumber rs p)
    return withOperands op (wordX 0 x)
  | .S, [p] => do
    let ls ← operandString rs p
    return withOperands op (wordS 0 ls.1 ls.2)
  | _, _ => none

/-! ## Lines of text -/

/-- The double quote. -/
def quote : Char := Char.ofNat 34

/-- A space or a tab. -/
def isBlank (c : Char) : Bool := c == ' ' || c == Char.ofNat 9

/-- A line up to its comment; a `;` inside quotes is a character (R81). -/
def uncomment (quoted : Bool) : List Char → List Char
  | [] => []
  | c :: cs => if c == ';' && !quoted then [] else c :: uncomment (if c == quote then !quoted else quoted) cs

/-- A line's parts between commas; a comma inside quotes is a character. The second argument is the part read so far, reversed. -/
def splitCommas (quoted : Bool) (part : List Char) : List Char → List (List Char)
  | [] => [part.reverse]
  | c :: cs =>
    if c == ',' && !quoted then part.reverse :: splitCommas quoted [] cs
    else splitCommas (if c == quote then !quoted else quoted) (c :: part) cs

/-- Without blanks at either end. -/
def trim (cs : List Char) : List Char := ((cs.dropWhile isBlank).reverse.dropWhile isBlank).reverse

/-- The value of a digit character in a base up to 16. -/
def digitValue (base : Nat) (c : Char) : Option Nat :=
  let v := if '0' ≤ c ∧ c ≤ '9' then c.toNat - 48 else if 'a' ≤ c ∧ c ≤ 'f' then c.toNat - 87
    else if 'A' ≤ c ∧ c ≤ 'F' then c.toNat - 55 else base
  if v < base then some v else none

/-- A number's digits after those already read. -/
def readDigits (base acc : Nat) : List Char → Option Nat
  | [] => some acc
  | c :: cs => do readDigits base (acc * base + (← digitValue base c)) cs

/-- A number in decimal, or in hexadecimal with `0x` (R81). -/
def readNatural : List Char → Option Nat
  | [] => none
  | '0' :: 'x' :: c :: cs => readDigits 16 0 (c :: cs)
  | c :: cs => readDigits 10 0 (c :: cs)

/-- The characters of a quoted string up to the closing quote, each one byte (R81). -/
def readQuoted : List Char → Option (List Byte)
  | [] => none
  | c :: cs =>
    if c == quote then (if cs.isEmpty then some [] else none)
    else if c.toNat < 256 then (readQuoted cs).map (BitVec.ofNat 8 c.toNat :: ·) else none

/-- One operand of a line (R81). -/
def readOperand : List Char → Option Operand
  | [] => none
  | c :: cs =>
    if c == quote then (readQuoted cs).map .str
    else if c == '%' then (readNatural cs).map .ref
    else if c == '-' then (readNatural cs).map (fun v => .num (-(v : Int)))
    else (readNatural (c :: cs)).map (fun v => .num (v : Int))

/-- The operands of a line, or none when one of them cannot be read. -/
def readOperands : List (List Char) → Option (List Operand)
  | [] => some []
  | p :: ps => do return (← readOperand (trim p)) :: (← readOperands ps)

/-- The command of one line, given the responses to the lines before it; none when the line holds no presentable command. -/
def assembleLine (rs : List Response) (line : List Char) : Option Instr := do
  let body := trim (uncomment false line)
  let op ← opcodeNamed (body.takeWhile (!isBlank ·))
  assemble rs op (← readOperands (splitCommas false [] (body.dropWhile (!isBlank ·))))

/-- The characters of a packed token, first character first (R54). -/
def tokenText (r : ResultWord) : String :=
  String.ofList ((List.range 6).map (fun k => Char.ofNat (r.extractLsb' (8 * k) 8).toNat))

/-- A response as R81 writes it; `op` is the command it answers. -/
def responseText (op : Opcode) : Response → String
  | .error .invalidArgument => "-> INVALID_ARGUMENT"
  | .error .malformedInput => "-> MALFORMED_INPUT"
  | .ok flag r =>
    match op with
    | .val28 => if flag then "-> OK FLAG=1" else "-> OK FLAG=0"
    | .enc28 | .encode => "-> OK " ++ String.ofList [quote] ++ tokenText r ++ String.ofList [quote]
    | .mul | .rem | .red28 | .cvt | .mulc | .muli | .ror | .rol | .xorm | .obf | .deobf | .dec28 | .decode =>
      "-> OK " ++ toString r.toNat

end Sys2Proof.Machine
end

