-- ==== Sys2Proof/Machine/Respond.lean ====
section
/-! DEFINITION. The block as the function R13 of 00_scope.md names, `exec : CFG -> CommandWord -> Response`: a response depends on
its own command word and the constants alone (R2, R57). The meanings of Machine/Dispatch.lean deliver the same responses. -/

namespace Sys2Proof.Machine

/-- The response to a command under a constant set, by the command's own rule (R78). -/
def commandResponse (c : Cfg) : Instr → Response
  | .mul a b => mulResponse a b
  | .rem w n => remResponse w n
  | .red28 w => red28Response c w
  | .cvt w => cvtResponse w
  | .mulc a => mulcResponse c a
  | .muli a => muliResponse c a
  | .ror a => rorResponse c a
  | .rol a => rolResponse c a
  | .xorm a => xormResponse c a
  | .obf a => obfResponse c a
  | .deobf a => deobfResponse c a
  | .enc28 a => enc28Response c a
  | .dec28 len str => dec28Response c len str
  | .val28 len str => val28Response c len str
  | .encode x => encodeResponse c x
  | .decode len str => decodeResponse c len str

/-- The response to a command word (R13), a malformed word included (R77). -/
def respond (c : Cfg) (w : CmdWord) : Response :=
  match decode w with
  | .ok i => commandResponse c i
  | .error _ => raise .invalidArgument

end Sys2Proof.Machine
end

