-- ==== Sys2Proof/Safety.lean ====
section
/-! DEFINITION. The terms claims use: when the block may be asked to answer, what a well-shaped response is, and the invariant of a
run (R200 of 70_reset_and_hazards.md, R24, R26, R32, R35 of 10_state.md). -/

namespace Sys2Proof.Machine

/-- A command is presented to a block with a usable constant set: `w` is the word it answers next and `rest` the words after it
(R185, R200). This is all a command needs to be answered; there is no mode, enable or memory (R181, R50). -/
abbrev Ready (s : State) (w : CmdWord) (rest : List CmdWord) : Prop := s.rom.Usable ∧ s.pending = w :: rest

/-- `s` after the command ahead has been answered with `r`: that command is gone, its response is the newest on the port, and the
constants, the later commands and the earlier responses are as they were (R57, R175). -/
abbrev afterAnswer (s : State) (rest : List CmdWord) (r : Response) : State :=
  { s with pending := rest, answered := s.answered ++ [r] }

/-- Character `k` of the string or token a result field holds (R54). -/
def resultChar (r : ResultWord) (k : Nat) : Byte := r.extractLsb' (8 * k) 8

/-- The shape every response has (R24, R26, R32, R35): a set `FLAG` comes with `R = 0`, and otherwise `R` is a number of at most 45
bits or six symbols of the alphabet. An error response has neither. -/
def WellShaped (c : Cfg) : Response → Prop
  | .error _ => True
  | .ok true r => r = 0
  | .ok false r => r.toNat < 2 ^ 45 ∨ ∀ k, k < 6 → resultChar r k ∈ c.alphabet

/-- The invariant of a run: the constants stay usable and every response on the port is well shaped. -/
def RunInv (s : State) : Prop := s.rom.Usable ∧ ∀ r ∈ s.answered, WellShaped s.rom r

/-- No command is outstanding (R200 (2), R192). -/
abbrev Quiet (s : State) : Prop := s.pending = [] ∧ s.answered = []

/-- A step is safe when it stops neither with a fault nor with a refusal. -/
def SafeStep (s : State) : Prop := ∃ t, step s = .next t

/-- The row of opcode `op` in R78: a word with that opcode is the command `i` reads from it when `c AND mask = op`, and no command
otherwise (R73, R77, R85). -/
def RowDecodes (op : BitVec 4) (mask : CmdWord) (i : CmdWord → Instr) : Prop :=
  ∀ w : CmdWord, w.extractLsb 3 0 = op →
    (w &&& mask = op.setWidth 96 → decode w = .ok (i w)) ∧
    (w &&& mask ≠ op.setWidth 96 → ∃ e, decode w = .error e)

/-- A word of opcode `op` with a must-be-zero bit set answers INVALID_ARGUMENT: the "malformed command word" of every command's rule
(R77 step 2). -/
def MalformedIsInvalidArgument (op : BitVec 4) (mask : CmdWord) : Prop :=
  ∀ s w rest, Ready s w rest → w.extractLsb 3 0 = op → w &&& mask ≠ op.setWidth 96 →
    step s = .next (afterAnswer s rest (.error .invalidArgument))

/-- Two format-A commands undo each other: the first answers every operand with a 28-bit number to which the second answers the
operand. -/
def Undoes (c : Cfg) (second first : BitVec 28 → Instr) : Prop :=
  ∀ a : BitVec 28, ∃ y : BitVec 28,
    commandResponse c (first a) = .ok false (y.setWidth 48) ∧
    commandResponse c (second y) = .ok false (a.setWidth 48)

end Sys2Proof.Machine
end

