-- ==== Sys2Proof/WellFormed.lean ====
section
/-! DEFINITION. Which commands are legal (R77 step 3, R79 of 30_encoding.md). -/

namespace Sys2Proof

/-- A legal command (R79): operands of exact width make every term's word match its row of R78, and the one further check of R77
step (3) is that `DEC28` names a string its operand can hold (R80). An illegal command still has an effect, the response
`INVALID_ARGUMENT`. -/
def Instr.wellFormed : Instr → Bool
  | .dec28 len _ => decide (len.toNat ≤ smax)
  | .mul _ _ => true
  | .rem _ _ => true
  | .red28 _ => true
  | .cvt _ => true
  | .mulc _ => true
  | .muli _ => true
  | .ror _ => true
  | .rol _ => true
  | .xorm _ => true
  | .obf _ => true
  | .deobf _ => true
  | .enc28 _ => true
  | .val28 _ _ => true
  | .encode _ => true
  | .decode _ _ => true

end Sys2Proof
end

