-- ==== Sys2Proof/Certificates/Slice0/Obligations.lean ====
section
/-! DEFINITION. The statements about the base28 CORE, from the numbered rules of spec/. Each docstring names the rule it formalises. -/

open Sys2Proof Sys2Proof.Machine

/-! ## Decoding and encoding (30_encoding.md) -/

/-- R77, R78, R85: all 16 opcodes, their masks and the bit positions of their operands (R72, R73). -/
def Obligations.DecodeFollowsTheOpcodeMap : Prop :=
  RowDecodes 0x0 0xFFFFFE00_00FFFFF0_000000FF (fun w => .mul (w.extractLsb 35 8) (w.extractLsb 72 56)) ∧
  RowDecodes 0x1 0xFFE00000_00E00000_000000FF (fun w => .rem (w.extractLsb 52 8) (w.extractLsb 84 56)) ∧
  RowDecodes 0x2 0xFFFFFFFF_FFE00000_000000FF (fun w => .red28 (w.extractLsb 52 8)) ∧
  RowDecodes 0x3 0xFFFFFFFF_FFE00000_000000FF (fun w => .cvt (w.extractLsb 52 8)) ∧
  RowDecodes 0x4 0xFFFFFFFF_FFFFFFF0_000000FF (fun w => .mulc (w.extractLsb 35 8)) ∧
  RowDecodes 0x5 0xFFFFFFFF_FFFFFFF0_000000FF (fun w => .muli (w.extractLsb 35 8)) ∧
  RowDecodes 0x6 0xFFFFFFFF_FFFFFFF0_000000FF (fun w => .ror (w.extractLsb 35 8)) ∧
  RowDecodes 0x7 0xFFFFFFFF_FFFFFFF0_000000FF (fun w => .rol (w.extractLsb 35 8)) ∧
  RowDecodes 0x8 0xFFFFFFFF_FFFFFFF0_000000FF (fun w => .xorm (w.extractLsb 35 8)) ∧
  RowDecodes 0x9 0xFFFFFFFF_FFFFFFF0_000000FF (fun w => .obf (w.extractLsb 35 8)) ∧
  RowDecodes 0xA 0xFFFFFFFF_FFFFFFF0_000000FF (fun w => .deobf (w.extractLsb 35 8)) ∧
  RowDecodes 0xB 0xFFFFFFFF_FFFFFFF0_000000FF (fun w => .enc28 (w.extractLsb 35 8)) ∧
  RowDecodes 0xC 0xFFFFFF00_00000000_0000000F (fun w => .dec28 (w.extractLsb 7 4) (w.extractLsb 71 8)) ∧
  RowDecodes 0xD 0xFFFFFF00_00000000_0000000F (fun w => .val28 (w.extractLsb 7 4) (w.extractLsb 71 8)) ∧
  RowDecodes 0xE 0xFFFFFFFF_FFFFFF00_000000FF (fun w => .encode (w.extractLsb 39 8)) ∧
  RowDecodes 0xF 0xFFFFFF00_00000000_0000000F (fun w => .decode (w.extractLsb 7 4) (w.extractLsb 71 8))

/-- Decoding an encoded command gives it back, for every command and every operand, the illegal `DEC28` included (R72, R73). -/
def Obligations.DecodeInvertsEncode : Prop := ∀ i : Instr, decode (encode i) = .ok i

/-- Every word that decodes is the encoding of what it decodes to: no bit of a command word is dropped (R72, R73, R77). -/
def Obligations.EncodeInvertsDecode : Prop := ∀ (w : CmdWord) (i : Instr), decode w = .ok i → encode i = w

/-- Words of R83 and of 95_test_vectors.md decode to the commands printed beside them. -/
def Obligations.SpecWordsDecode : Prop :=
  decode 0x000000FF_F1000000_00000100 = .ok (.mul 1 65521) ∧
  decode 0x00000000_07000000_00006401 = .ok (.rem 100 7) ∧
  decode 0x00000000_00000000_00000109 = .ok (.obf 1) ∧
  decode 0x00000000_00000000_0000010B = .ok (.enc28 1) ∧
  decode 0x00000000_00483856_504E506C = .ok (.dec28 6 0x48385650_4E50) ∧
  decode 0x00000000_000000FF_FFFFFF0E = .ok (.encode (-1)) ∧
  decode 0x00000000_00483856_504E506F = .ok (.decode 6 0x48385650_4E50) ∧
  decode 0x00000000_00000010_0000010B = .error (.mustBeZero .enc28)

/-- R77 step (3), R79, R80: the one illegal command that a well-formed word can hold is `DEC28` with `LEN > 8`, and it answers
INVALID_ARGUMENT. -/
def Obligations.IllegalCommandAnswersInvalidArgument : Prop :=
  (∀ i : Instr, i.wellFormed = false ↔ ∃ len str, i = .dec28 len str ∧ 8 < len.toNat) ∧
  (∀ s w rest i, Ready s w rest → i.wellFormed = false →
    exec i s = .next (afterAnswer s rest (.error .invalidArgument)))

/-! ## Steps, runs and the port (00_scope.md, 20_memory.md, 70_reset_and_hazards.md) -/

/-- R13, R77: with a command presented, a step is `exec` of the command its word decodes to, or the INVALID_ARGUMENT response to a
malformed word; with none presented it changes nothing, which is the model's choice (log entry 4). -/
def Obligations.StepRunsTheDecodedCommand : Prop :=
  (∀ s w rest i, s.pending = w :: rest → decode w = .ok i → step s = exec i s) ∧
  (∀ s w rest e, Ready s w rest → decode w = .error e →
    step s = .next (afterAnswer s rest (.error .invalidArgument))) ∧
  (∀ s, s.pending = [] → step s = .next s)

/-- R13, R57: the meanings deliver, to the command ahead, the response the function `commandResponse` gives. -/
def Obligations.ExecDeliversTheCommandResponse : Prop :=
  ∀ s w rest i, Ready s w rest → exec i s = .next (afterAnswer s rest (commandResponse s.rom i))

/-- The frame of all 16 commands (R7, R20, R57, R175): a command that is answered leaves the constants, the later commands and the
earlier responses as they were and adds one response. There is no register, flag, special register or memory to leave unchanged
(R20, R21, R25, R29, R50). -/
def Obligations.ExecFrame : Prop :=
  ∀ i s t, exec i s = .next t →
    t.rom = s.rom ∧ (∃ w, s.pending = w :: t.pending) ∧ (∃ r, t.answered = s.answered ++ [r])

/-- All a step can do (R13, R57): nothing, or answer the oldest command with `exec CFG cmd`. -/
def Obligations.StepAnswersTheOldestCommand : Prop :=
  ∀ s t, step s = .next t →
    (s.pending = [] ∧ t = s) ∨
    (∃ w rest, s.pending = w :: rest ∧ t = afterAnswer s rest (respond s.rom w))

/-- R198: under a usable constant set no step stops, whatever words are pending. -/
def Obligations.UsableBlockNeverStops : Prop := ∀ s : State, s.rom.Usable → SafeStep s

/-- R57, R198: the first commands of the queue are answered one a step, in the order presented, each with `exec CFG cmd` and exactly
one response, whatever else is in flight. -/
def Obligations.RunAnswersCommandsInOrder : Prop :=
  ∀ (s : State) (ws rest : List CmdWord), s.rom.Usable → s.pending = ws ++ rest →
    Sys2Proof.core.run ws.length s =
      .next { s with pending := rest, answered := s.answered ++ ws.map (respond s.rom) }

/-- R31, R57: equal command words get equal responses, whatever else is in flight and whatever was answered before. -/
def Obligations.ResponseDependsOnWordAndConstantsOnly : Prop :=
  ∀ s s' t t' w rest rest', s.pending = w :: rest → s'.pending = w :: rest' → s.rom = s'.rom →
    step s = .next t → step s' = .next t' →
    ∃ r, t.answered = s.answered ++ [r] ∧ t'.answered = s'.answered ++ [r]

/-- R194: the host may present any of the 2^96 words, and a quiet block returns exactly one response to it. -/
def Obligations.PresentedWordGetsOneResponse : Prop :=
  ∀ (s : State) (w : CmdWord), s.rom.Usable → Quiet s →
    step (present w s) = .next { s with answered := [respond s.rom w] }

/-- R36: a response is taken once, oldest first, and reading the port at any other time is refused. -/
def Obligations.ReceiveTakesEachResponseOnce : Prop :=
  (∀ s : State, s.answered = [] → receive s = .error .noResponse) ∧
  (∀ (s : State) (r : Response) (rest : List Response), s.answered = r :: rest →
    receive s = .ok (r, { s with answered := rest }))

/-- R190, R192: a reset changes nothing, and has no meaning while a command is outstanding. -/
def Obligations.HostResetOnlyWhenQuiet : Prop :=
  (∀ s : State, Quiet s → hostReset s = .ok s) ∧
  (∀ s : State, ¬ Quiet s → hostReset s = .error .resetWhileOutstanding)

/-- R185: under an ill-formed `CFG` no command is answered, malformed words included. -/
def Obligations.IllFormedConstantsAreRefused : Prop :=
  ∀ (s : State) (w : CmdWord) (rest : List CmdWord), s.pending = w :: rest → ¬ s.rom.WellFormed →
    step s = .refused .illFormedCfg

/-! ## Reset, constants and the invariant (00_scope.md, 10_state.md) -/

/-- R34: what reset leaves, with the values of R5, R27 and R28, and that the block is then ready for any first command. -/
def Obligations.ResetHoldsTheConstantSet : Prop :=
  State.reset.rom.bits = 28 ∧ State.reset.rom.modulus = 2 ^ 28 ∧ State.reset.rom.maxval = 0x0FFFFFFF ∧
  State.reset.rom.rot = 7 ∧ State.reset.rom.xorMask = 79301298 ∧ State.reset.rom.coprime = 65521 ∧
  State.reset.rom.inverse = 233836817 ∧ State.reset.rom.radix = 28 ∧ State.reset.rom.toklen = 6 ∧
  State.reset.rom.alphabet.map BitVec.toNat = "BCDFGHJKMNPQRSTVWXYZ23456789".toList.map Char.toNat ∧
  State.reset.pending = [] ∧ State.reset.answered = [] ∧
  (∀ w, SafeStep (present w State.reset))

/-- R6: the constant set of R5 is well formed, by the two products R6 gives, and fits the words. -/
def Obligations.ShippedConstantsAreUsable : Prop :=
  base28.Usable ∧
  base28.coprime * base28.inverse = 57076 * 2 ^ 28 + 1 ∧
  base28.radix ^ base28.toklen = 481890304

/-- R28: the host observes `XOR_MASK` as `XORM 0`, `COPRIME` as `MULC 1` and `INVERSE` as `MULI 1`. -/
def Obligations.ConstantsAreObservable : Prop :=
  ∀ s w rest, Ready s w rest →
    exec (.xorm 0) s = .next (afterAnswer s rest (.ok false (BitVec.ofNat 48 s.rom.xorMask))) ∧
    exec (.mulc 1) s = .next (afterAnswer s rest (.ok false (BitVec.ofNat 48 s.rom.coprime))) ∧
    exec (.muli 1) s = .next (afterAnswer s rest (.ok false (BitVec.ofNat 48 s.rom.inverse)))

/-- The state after reset meets the invariant. -/
def Obligations.ResetMeetsTheInvariant : Prop := RunInv State.reset

/-- Every step keeps the invariant: the constants stay usable (R7, R28) and every response on the port is well shaped, a set `FLAG`
with `R = 0`, a number of at most 45 bits, or six symbols (R24, R26, R32, R35). -/
def Obligations.StepKeepsTheInvariant : Prop := ∀ s t, RunInv s → step s = .next t → RunInv t

/-! ## Exact arithmetic (40_exact_arithmetic.md) -/

/-- R101. -/
def Obligations.MulAnswersTheExactProduct : Prop :=
  (∀ s w rest (a : BitVec 28) (b : BitVec 17), Ready s w rest →
    ∃ r : ResultWord, r.toNat = a.toNat * b.toNat ∧ r.toNat < 2 ^ 45 ∧
      exec (.mul a b) s = .next (afterAnswer s rest (.ok false r))) ∧
  MalformedIsInvalidArgument 0x0 0xFFFFFE00_00FFFFF0_000000FF

/-- R102. -/
def Obligations.RemAnswersTheRemainder : Prop :=
  (∀ s w rest (v : BitVec 45) (n : BitVec 29), Ready s w rest →
    if n = 0 then exec (.rem v n) s = .next (afterAnswer s rest (.error .invalidArgument))
    else ∃ r : ResultWord, r.toNat = v.toNat % n.toNat ∧ r.toNat < 2 ^ 29 ∧
      exec (.rem v n) s = .next (afterAnswer s rest (.ok false r))) ∧
  MalformedIsInvalidArgument 0x1 0xFFE00000_00E00000_000000FF

/-- R103. -/
def Obligations.Red28AnswersTheLow28Bits : Prop :=
  (∀ s w rest (v : BitVec 45), Ready s w rest →
    ∃ r : ResultWord, r.toNat = v.toNat % s.rom.modulus ∧ r = (v.setWidth 28).setWidth 48 ∧
      exec (.red28 v) s = .next (afterAnswer s rest (.ok false r))) ∧
  MalformedIsInvalidArgument 0x2 0xFFFFFFFF_FFE00000_000000FF

/-- R104: the result is `W` as a non-negative signed 32-bit value, or the conversion fails; it never saturates. -/
def Obligations.CvtConvertsOrFails : Prop :=
  (∀ s w rest (v : BitVec 45), Ready s w rest →
    if v.toNat ≤ 2 ^ 31 - 1 then
      ∃ r : ResultWord, r.toNat = v.toNat ∧ (r.setWidth 32).toInt = v.toNat ∧
        exec (.cvt v) s = .next (afterAnswer s rest (.ok false r))
    else exec (.cvt v) s = .next (afterAnswer s rest (.error .invalidArgument))) ∧
  MalformedIsInvalidArgument 0x3 0xFFFFFFFF_FFE00000_000000FF

/-- The bounds of every numeric result under the shipped constants, and of the two internal products, which R107 marks as derived. -/
def Obligations.ResultsStayWithinTheirWidths : Prop :=
  (∀ a : BitVec 28, a.toNat * base28.coprime ≤ 17588159447055 ∧ a.toNat * base28.inverse ≤ 62770092367146735) ∧
  (∀ (i : Instr) (r : ResultWord), commandResponse base28 i = .ok false r →
    match i with
    | .mul _ _ => r.toNat ≤ 35184103522305
    | .rem _ _ => r.toNat ≤ 2 ^ 29 - 2
    | .cvt _ => r.toNat ≤ 2 ^ 31 - 1
    | .dec28 _ _ => r.toNat ≤ 377801998335
    | .red28 _ | .mulc _ | .muli _ | .ror _ | .rol _ | .xorm _ | .obf _ | .deobf _ | .decode _ _ => r.toNat ≤ 2 ^ 28 - 1
    | .enc28 _ | .encode _ => ∀ k, k < 6 → resultChar r k ∈ base28.alphabet
    | .val28 _ _ => r = 0)

/-! ## Obfuscation permutation (41_permutation.md) -/

/-- R121. -/
def Obligations.MulcMultipliesByTheCoprime : Prop :=
  (∀ s w rest (a : BitVec 28), Ready s w rest →
    ∃ r : ResultWord, r.toNat = a.toNat * s.rom.coprime % s.rom.modulus ∧ r.toNat < 2 ^ 28 ∧
      exec (.mulc a) s = .next (afterAnswer s rest (.ok false r))) ∧
  MalformedIsInvalidArgument 0x4 0xFFFFFFFF_FFFFFFF0_000000FF

/-- The two identities of R82, which R82, R103 and R121 mark as derived: `RED28 w` is `REM w, 268435456`, and `MULC a` is
`MUL a, COPRIME` followed by `RED28` of its product. -/
def Obligations.Red28AndMulcAsOtherCommands : Prop :=
  ∀ s w rest, Ready s w rest →
    (∀ v : BitVec 45, exec (.red28 v) s = exec (.rem v 268435456) s) ∧
    (∀ a : BitVec 28, ∃ p : BitVec 45,
      exec (.mul a (BitVec.ofNat 17 s.rom.coprime)) s = .next (afterAnswer s rest (.ok false (p.setWidth 48))) ∧
      exec (.mulc a) s = exec (.red28 p) s)

/-- R122: the low 28 bits of the exact product, and the two cancellations with `MULC`. -/
def Obligations.MuliMultipliesByTheInverse : Prop :=
  (∀ s w rest (a : BitVec 28), Ready s w rest →
    ∃ r : ResultWord, r.toNat = a.toNat * s.rom.inverse % s.rom.modulus ∧ r.toNat < 2 ^ 28 ∧
      exec (.muli a) s = .next (afterAnswer s rest (.ok false r))) ∧
  (∀ c : Cfg, c.Usable → Undoes c .muli .mulc ∧ Undoes c .mulc .muli) ∧
  MalformedIsInvalidArgument 0x5 0xFFFFFFFF_FFFFFFF0_000000FF

/-- R123, bit by bit and as the number R10 gives. -/
def Obligations.RorRotatesRight : Prop :=
  (∀ s w rest (a : BitVec 28), Ready s w rest →
    ∃ r : ResultWord,
      (∀ i, r.getLsbD i = (decide (i < 28) && a.getLsbD ((i + s.rom.rot) % 28))) ∧
      r.toNat = a.toNat / 2 ^ s.rom.rot + a.toNat % 2 ^ s.rom.rot * 2 ^ (28 - s.rom.rot) ∧
      exec (.ror a) s = .next (afterAnswer s rest (.ok false r))) ∧
  MalformedIsInvalidArgument 0x6 0xFFFFFFFF_FFFFFFF0_000000FF

/-- R124, bit by bit and as the number R10 gives, and the two cancellations with `ROR`. -/
def Obligations.RolRotatesLeft : Prop :=
  (∀ s w rest (a : BitVec 28), Ready s w rest →
    ∃ r : ResultWord,
      (∀ i, r.getLsbD i = (decide (i < 28) && a.getLsbD ((i + (28 - s.rom.rot)) % 28))) ∧
      r.toNat = a.toNat * 2 ^ s.rom.rot % 2 ^ 28 + a.toNat / 2 ^ (28 - s.rom.rot) ∧
      exec (.rol a) s = .next (afterAnswer s rest (.ok false r))) ∧
  (∀ c : Cfg, c.Usable → Undoes c .rol .ror ∧ Undoes c .ror .rol) ∧
  MalformedIsInvalidArgument 0x7 0xFFFFFFFF_FFFFFFF0_000000FF

/-- R125, bit by bit, and that it undoes itself. -/
def Obligations.XormMasksEveryBit : Prop :=
  (∀ s w rest (a : BitVec 28), Ready s w rest →
    ∃ r : ResultWord,
      (∀ i, r.getLsbD i = (a.getLsbD i ^^ s.rom.xorMask.testBit i)) ∧ r.toNat < 2 ^ 28 ∧
      exec (.xorm a) s = .next (afterAnswer s rest (.ok false r))) ∧
  (∀ c : Cfg, c.Usable → Undoes c .xorm .xorm) ∧
  MalformedIsInvalidArgument 0x8 0xFFFFFFFF_FFFFFFF0_000000FF

/-- R126: the three steps with their numbers, each also the response of its own command. -/
def Obligations.ObfComposesTheForwardSteps : Prop :=
  (∀ s w rest (a : BitVec 28), Ready s w rest →
    ∃ p q r : BitVec 28,
      p.toNat = a.toNat * s.rom.coprime % s.rom.modulus ∧
      q.toNat = p.toNat / 2 ^ s.rom.rot + p.toNat % 2 ^ s.rom.rot * 2 ^ (28 - s.rom.rot) ∧
      r.toNat = q.toNat ^^^ s.rom.xorMask ∧
      exec (.mulc a) s = .next (afterAnswer s rest (.ok false (p.setWidth 48))) ∧
      exec (.ror p) s = .next (afterAnswer s rest (.ok false (q.setWidth 48))) ∧
      exec (.xorm q) s = .next (afterAnswer s rest (.ok false (r.setWidth 48))) ∧
      exec (.obf a) s = .next (afterAnswer s rest (.ok false (r.setWidth 48)))) ∧
  MalformedIsInvalidArgument 0x9 0xFFFFFFFF_FFFFFFF0_000000FF

/-- R127: the three steps with their numbers, each also the response of its own command. -/
def Obligations.DeobfComposesTheInverseSteps : Prop :=
  (∀ s w rest (a : BitVec 28), Ready s w rest →
    ∃ u v r : BitVec 28,
      u.toNat = a.toNat ^^^ s.rom.xorMask ∧
      v.toNat = u.toNat * 2 ^ s.rom.rot % 2 ^ 28 + u.toNat / 2 ^ (28 - s.rom.rot) ∧
      r.toNat = v.toNat * s.rom.inverse % s.rom.modulus ∧
      exec (.xorm a) s = .next (afterAnswer s rest (.ok false (u.setWidth 48))) ∧
      exec (.rol u) s = .next (afterAnswer s rest (.ok false (v.setWidth 48))) ∧
      exec (.muli v) s = .next (afterAnswer s rest (.ok false (r.setWidth 48))) ∧
      exec (.deobf a) s = .next (afterAnswer s rest (.ok false (r.setWidth 48)))) ∧
  MalformedIsInvalidArgument 0xA 0xFFFFFFFF_FFFFFFF0_000000FF

/-- R128: each step and the whole permutation are undone by their inverses, in both orders, under every usable constant set; and
`obfuscate` is injective. -/
def Obligations.PermutationIsABijection : Prop :=
  ∀ c : Cfg, c.Usable →
    Undoes c .muli .mulc ∧ Undoes c .mulc .muli ∧
    Undoes c .rol .ror ∧ Undoes c .ror .rol ∧
    Undoes c .xorm .xorm ∧
    Undoes c .deobf .obf ∧ Undoes c .obf .deobf ∧
    (∀ a b : BitVec 28, commandResponse c (.obf a) = commandResponse c (.obf b) → a = b)

/-- R129: under the shipped constants `OBF` returns 208557222 unchanged, by the intermediate values R129 gives, and no other operand:
the seven high bits of a fixed operand and the step itself determine it from the low end up, seven bits at a time. -/
def Obligations.ShippedPermutationHasOneFixedPoint : Prop :=
  (∀ a : BitVec 28, commandResponse base28 (.obf a) = .ok false (a.setWidth 48) ↔ a = 208557222) ∧
  commandResponse base28 (.mul 208557222 65521) = .ok false 0xC6D9A2F0A46 ∧
  commandResponse base28 (.mulc 208557222) = .ok false 0xA2F0A46 ∧
  commandResponse base28 (.ror 0xA2F0A46) = .ok false 0x8D45E14 ∧
  commandResponse base28 (.xorm 0x8D45E14) = .ok false 208557222

/-- The way to the inverse engine that R131 marks as derived: two passes of the 28 x 17 multiplier, a reduction modulo 2^11, one
addition that fits the operand `W`, and a reduction modulo 2^28, all but the addition by commands. -/
def Obligations.InverseEngineFromTwoMultiplierPasses : Prop :=
  base28.inverse = 1784 * 2 ^ 17 + 4369 ∧
  ∀ a : BitVec 28, ∃ (p q : BitVec 45) (m : ResultWord),
    commandResponse base28 (.mul a 4369) = .ok false (p.setWidth 48) ∧
    commandResponse base28 (.mul a 1784) = .ok false (q.setWidth 48) ∧
    commandResponse base28 (.rem q 2048) = .ok false m ∧
    p.toNat + m.toNat * 2 ^ 17 < 2 ^ 45 ∧
    commandResponse base28 (.muli a) =
      commandResponse base28 (.red28 (BitVec.ofNat 45 (p.toNat + m.toNat * 2 ^ 17)))

/-! ## Base-28 text codec (42_base28_text.md) -/

/-- Only the 26 lower-case codes are folded: R141, whose codes the spec marks as taken from general knowledge. -/
def Obligations.UpperFoldsLowerCaseOnly : Prop :=
  ∀ b : Byte,
    (0x61 ≤ b.toNat ∧ b.toNat ≤ 0x7A → (upper b).toNat = b.toNat - 0x20) ∧
    (b.toNat < 0x61 ∨ 0x7A < b.toNat → upper b = b)

/-- R142: `index` is the position of the folded code, unique, defined for exactly 48 byte values. -/
def Obligations.IndexFindsTheUniqueSymbol : Prop :=
  (∀ (b : Byte) (i : Nat), index base28 b = some i ↔ i < 28 ∧ base28.alphabet[i]? = some (upper b)) ∧
  ((List.range 256).filter (fun v => (index base28 (BitVec.ofNat 8 v)).isSome)).length = 48 ∧
  (∀ b ∈ ([0x41, 0x45, 0x49, 0x4C, 0x4F, 0x55, 0x61, 0x65, 0x69, 0x6C, 0x6F, 0x75, 0x30, 0x31, 0x20, 0x00] : List Byte),
    index base28 b = none) ∧
  (∀ b : Byte, b.toNat < 0x20 ∨ 0x7F ≤ b.toNat → index base28 b = none)

/-- `ENC28` answers six symbols, character `k` the symbol of digit `(A div 28^(5-k)) mod 28`, the closed form R144 marks as derived
from its pseudocode; the first is among `B` to `V`. -/
def Obligations.Enc28WritesTheDigits : Prop :=
  (∀ s w rest (a : BitVec 28), Ready s w rest →
    ∃ r : ResultWord,
      (∀ k, k < 6 → s.rom.alphabet[a.toNat / 28 ^ (5 - k) % 28]? = some (resultChar r k)) ∧
      resultChar r 0 ∈ s.rom.alphabet.take 16 ∧
      exec (.enc28 a) s = .next (afterAnswer s rest (.ok false r))) ∧
  MalformedIsInvalidArgument 0xB 0xFFFFFFFF_FFFFFFF0_000000FF

/-- R146: the checks of `DEC28` in their order, and the value of the string. -/
def Obligations.Dec28ReadsTheDigits : Prop :=
  (∀ s w rest (len : BitVec 4) (str : BitVec 64), Ready s w rest →
    (8 < len.toNat → exec (.dec28 len str) s = .next (afterAnswer s rest (.error .invalidArgument))) ∧
    (len = 0 → exec (.dec28 len str) s = .next (afterAnswer s rest (.error .malformedInput))) ∧
    (len.toNat ≤ 8 → (∃ k, k < len.toNat ∧ index s.rom (str.extractLsb' (8 * k) 8) = none) →
      exec (.dec28 len str) s = .next (afterAnswer s rest (.error .malformedInput))) ∧
    (∀ d : Nat → Nat, 0 < len.toNat → len.toNat ≤ 8 →
      (∀ k, k < len.toNat → index s.rom (str.extractLsb' (8 * k) 8) = some (d k)) →
      ∃ r : ResultWord,
        r.toNat = ((List.range len.toNat).map (fun k => d k * 28 ^ (len.toNat - 1 - k))).sum ∧ r.toNat < 2 ^ 39 ∧
        exec (.dec28 len str) s = .next (afterAnswer s rest (.ok false r)))) ∧
  MalformedIsInvalidArgument 0xC 0xFFFFFF00_00000000_0000000F

/-- R150: `VAL28` never fails, and answers 1 exactly for six symbols. -/
def Obligations.Val28ValidatesSixSymbols : Prop :=
  (∀ s w rest (len : BitVec 4) (str : BitVec 64), Ready s w rest →
    ∃ flag : Bool,
      (flag = true ↔ len = 6 ∧ ∀ k, k < 6 → index s.rom (str.extractLsb' (8 * k) 8) ≠ none) ∧
      exec (.val28 len str) s = .next (afterAnswer s rest (.ok flag 0))) ∧
  MalformedIsInvalidArgument 0xD 0xFFFFFF00_00000000_0000000F

/-- R53: string byte `S[k]` is `CMD[8k+15:8k+8]`, and the bytes with `k >= LEN` influence no response. -/
def Obligations.BytesBeyondTheLengthAreIgnored : Prop :=
  (∀ (len : BitVec 4) (str : BitVec 64) (k : Nat), k < 8 →
    (encode (.dec28 len str)).extractLsb' (8 * k + 8) 8 = charAt str k ∧
    (encode (.val28 len str)).extractLsb' (8 * k + 8) 8 = charAt str k ∧
    (encode (.decode len str)).extractLsb' (8 * k + 8) 8 = charAt str k) ∧
  (∀ (c : Cfg) (len : BitVec 4) (str str' : BitVec 64), c.Usable →
    (∀ k, k < len.toNat → k < 8 → charAt str k = charAt str' k) →
    commandResponse c (.dec28 len str) = commandResponse c (.dec28 len str') ∧
    commandResponse c (.val28 len str) = commandResponse c (.val28 len str') ∧
    commandResponse c (.decode len str) = commandResponse c (.decode len str'))

/-- R54: character `k` of a token is `RSP[8k+23:8k+16]`, `R[47:0]` copied into `CMD[55:8]` with `LEN` = 6 is the string of those
characters, and every token the block answers is made of the codes of the alphabet. -/
def Obligations.TokenCopiesIntoAString : Prop :=
  (∀ (flag : Bool) (r : ResultWord) (k : Nat), k < 6 →
    (printWord (.ok flag r)).extractLsb' (8 * k + 16) 8 = resultChar r k ∧ charAt (r.setWidth 64) k = resultChar r k) ∧
  (∀ r : ResultWord,
    (encode (.dec28 6 (r.setWidth 64))).extractLsb 55 8 = r ∧
    (encode (.val28 6 (r.setWidth 64))).extractLsb 55 8 = r ∧
    (encode (.decode 6 (r.setWidth 64))).extractLsb 55 8 = r) ∧
  (∀ (c : Cfg) (r : ResultWord), c.Usable →
    (∃ a, commandResponse c (.enc28 a) = .ok false r) ∨ (∃ x, commandResponse c (.encode x) = .ok false r) →
    ∀ k, k < 6 → resultChar r k ∈ c.alphabet)

/-- R80: what a `LEN` of 9 to 15 answers, whatever the bytes, and that `LEN` up to 8 is legal. -/
def Obligations.UnpresentableStringsAnswerByLength : Prop :=
  ∀ s w rest (len : BitVec 4) (str : BitVec 64), Ready s w rest →
    ((Instr.dec28 len str).wellFormed = true ↔ len.toNat ≤ 8) ∧
    (8 < len.toNat →
      exec (.val28 len str) s = .next (afterAnswer s rest (.ok false 0)) ∧
      exec (.decode len str) s = .next (afterAnswer s rest (.error .malformedInput)) ∧
      exec (.dec28 len str) s = .next (afterAnswer s rest (.error .invalidArgument)))

/-- R147: on a string of symbols whose length is not 6, `DEC28` is lenient and `VAL28` and `DECODE` are strict; a character outside
the alphabet is rejected by all three. -/
def Obligations.Dec28IsLenientVal28IsStrict : Prop :=
  (∀ (c : Cfg) (len : BitVec 4) (str : BitVec 64), c.Usable → 0 < len.toNat → len.toNat ≤ 8 →
    (∀ k, k < len.toNat → index c (charAt str k) ≠ none) →
    (∃ r, commandResponse c (.dec28 len str) = .ok false r) ∧
    commandResponse c (.val28 len str) = .ok (len == 6) 0 ∧
    (len ≠ 6 → commandResponse c (.decode len str) = .error .malformedInput)) ∧
  (∀ (c : Cfg) (len : BitVec 4) (str : BitVec 64) (k : Nat), c.Usable → len.toNat ≤ 8 → k < len.toNat →
    index c (charAt str k) = none →
    commandResponse c (.dec28 len str) = .error .malformedInput ∧
    commandResponse c (.val28 len str) = .ok false 0 ∧
    commandResponse c (.decode len str) = .error .malformedInput)

/-- R151, of which the spec marks all but the first equation as derived: `DEC28` and `VAL28` on the token `ENC28` answers, copied as R54 says; `ENC28` is injective; `ENC28` of the value of a
six-symbol string is its upper-case form whenever the value can be presented; and two strings of six symbols with one value have one
upper-case form. -/
def Obligations.TextCodecRoundTrips : Prop :=
  ∀ c : Cfg, c.Usable →
    (∀ a : BitVec 28, ∃ r : ResultWord,
      commandResponse c (.enc28 a) = .ok false r ∧
      commandResponse c (.val28 6 (r.setWidth 64)) = .ok true 0 ∧
      commandResponse c (.dec28 6 (r.setWidth 64)) = .ok false (a.setWidth 48)) ∧
    (∀ a b : BitVec 28, commandResponse c (.enc28 a) = commandResponse c (.enc28 b) → a = b) ∧
    (∀ (str : BitVec 64) (v : BitVec 28), commandResponse c (.dec28 6 str) = .ok false (v.setWidth 48) →
      ∃ r : ResultWord, commandResponse c (.enc28 v) = .ok false r ∧
        ∀ k, k < 6 → resultChar r k = upper (charAt str k)) ∧
    (∀ (str str' : BitVec 64) (v : ResultWord),
      commandResponse c (.dec28 6 str) = .ok false v → commandResponse c (.dec28 6 str') = .ok false v →
      ∀ k, k < 6 → upper (charAt str k) = upper (charAt str' k))

/-! ## Full identifier codec (43_id_codec.md) -/

/-- R161: the range check of `ENCODE`, then `OBF`, then `ENC28`. -/
def Obligations.EncodeChecksThenComposes : Prop :=
  (∀ s w rest (x : BitVec 32), Ready s w rest →
    if x.toInt < 0 ∨ (s.rom.maxval : Int) < x.toInt then
      exec (.encode x) s = .next (afterAnswer s rest (.error .invalidArgument))
    else ∃ (y : BitVec 28) (r : ResultWord),
      exec (.obf (x.setWidth 28)) s = .next (afterAnswer s rest (.ok false (y.setWidth 48))) ∧
      exec (.enc28 y) s = .next (afterAnswer s rest (.ok false r)) ∧
      exec (.encode x) s = .next (afterAnswer s rest (.ok false r))) ∧
  MalformedIsInvalidArgument 0xE 0xFFFFFFFF_FFFFFF00_000000FF

/-- R163: the strict check of `DECODE`, then the value, its range, and `DEOBF`. -/
def Obligations.DecodeChecksThenComposes : Prop :=
  (∀ s w rest (len : BitVec 4) (str : BitVec 64), Ready s w rest →
    (commandResponse s.rom (.val28 len str) = .ok false 0 →
      exec (.decode len str) s = .next (afterAnswer s rest (.error .malformedInput))) ∧
    (commandResponse s.rom (.val28 len str) = .ok true 0 →
      ∃ v : ResultWord, exec (.dec28 6 str) s = .next (afterAnswer s rest (.ok false v)) ∧ v.toNat < 28 ^ 6 ∧
        if s.rom.maxval < v.toNat then
          exec (.decode len str) s = .next (afterAnswer s rest (.error .malformedInput))
        else ∃ r : BitVec 28,
          exec (.deobf (v.setWidth 28)) s = .next (afterAnswer s rest (.ok false (r.setWidth 48))) ∧
          exec (.decode len str) s = .next (afterAnswer s rest (.ok false (r.setWidth 48))))) ∧
  MalformedIsInvalidArgument 0xF 0xFFFFFF00_00000000_0000000F

/-- R164, whose second sentence the spec marks as derived: `DECODE (ENCODE x) = x` over the whole domain, and `ENCODE (DECODE s)` is the upper-case form of every string `DECODE`
accepts. -/
def Obligations.IdentifierCodecRoundTrips : Prop :=
  ∀ c : Cfg, c.Usable →
    (∀ x : BitVec 32, 0 ≤ x.toInt → x.toInt ≤ c.maxval → ∃ r : ResultWord,
      commandResponse c (.encode x) = .ok false r ∧
      commandResponse c (.decode 6 (r.setWidth 64)) = .ok false (x.setWidth 48)) ∧
    (∀ (len : BitVec 4) (str : BitVec 64) (v : ResultWord), commandResponse c (.decode len str) = .ok false v →
      ∃ r : ResultWord, commandResponse c (.encode (v.setWidth 32)) = .ok false r ∧
        ∀ k, k < 6 → resultChar r k = upper (charAt str k))

/-- R162, whose last sentence the spec marks as derived: `ENCODE` answers every identifier of the domain with a token that decodes to it, different identifiers with different
tokens, and its tokens are exactly those whose base-28 value is below 2^28. -/
def Obligations.EncodeAnswersEachTokenOnce : Prop :=
  ∀ c : Cfg, c.Usable →
    (∀ x : BitVec 32, 0 ≤ x.toInt → x.toInt ≤ c.maxval → ∃ r : ResultWord,
      commandResponse c (.encode x) = .ok false r ∧ commandResponse c (.decode 6 (r.setWidth 64)) = .ok false (x.setWidth 48)) ∧
    (∀ (x y : BitVec 32) (r : ResultWord),
      commandResponse c (.encode x) = .ok false r → commandResponse c (.encode y) = .ok false r → x = y) ∧
    (∀ r : ResultWord,
      (∃ x, commandResponse c (.encode x) = .ok false r) ↔
      (∀ k, k < 6 → resultChar r k ∈ c.alphabet) ∧
        ∃ v : ResultWord, commandResponse c (.dec28 6 (r.setWidth 64)) = .ok false v ∧ v.toNat < 2 ^ 28)

/-- R193, R130: the power-on self-test under the shipped constants. -/
def Obligations.SelfTestCommands : Prop :=
  respond base28 (encode (.muli 65521)) = .ok false 1 ∧
  respond base28 (encode (.mulc 233836817)) = .ok false 1 ∧
  printWord (respond base28 (encode (.encode 1))) = 0x48385650_4E500000 ∧
  respond base28 0x00000000_00483856_504E506F = .ok false 1

/-! ## Errors and the response word (10_state.md, 30_encoding.md, 60_exceptions.md) -/

/-- R172: the causes of INVALID_ARGUMENT, completely. -/
def Obligations.InvalidArgumentCauses : Prop :=
  ∀ (c : Cfg) (w : CmdWord), c.Usable →
    (respond c w = .error .invalidArgument ↔
      (∃ e, decode w = .error e) ∨
      (∃ v, decode w = .ok (.rem v 0)) ∨
      (∃ x, decode w = .ok (.encode x) ∧ (x.toInt < 0 ∨ 268435455 < x.toInt)) ∨
      (∃ v, decode w = .ok (.cvt v) ∧ 2147483647 < v.toNat) ∨
      (∃ len str, decode w = .ok (.dec28 len str) ∧ 8 < len.toNat))

/-- R176: the causes of MALFORMED_INPUT, completely. -/
def Obligations.MalformedInputCauses : Prop :=
  ∀ (c : Cfg) (w : CmdWord), c.Usable →
    (respond c w = .error .malformedInput ↔
      (∃ len str, decode w = .ok (.dec28 len str) ∧
        (len = 0 ∨ (len.toNat ≤ 8 ∧ ∃ k, k < len.toNat ∧ index c (charAt str k) = none))) ∨
      (∃ len str, decode w = .ok (.decode len str) ∧
        (len ≠ 6 ∨ (∃ k, k < 6 ∧ index c (charAt str k) = none) ∨
          ∃ v, commandResponse c (.dec28 6 str) = .ok false v ∧ 268435455 < v.toNat)))

/-- R171: which commands can return which status, and that each entry of the table is reached. -/
def Obligations.StatusTable : Prop :=
  (∀ (c : Cfg) (i : Instr), c.Usable →
    match i with
    | .mul _ _ | .red28 _ | .mulc _ | .muli _ | .ror _ | .rol _ | .xorm _ | .obf _ | .deobf _ | .enc28 _ | .val28 _ _ =>
      ∃ flag r, commandResponse c i = .ok flag r
    | .rem _ _ | .cvt _ | .encode _ => commandResponse c i ≠ .error .malformedInput
    | .decode _ _ => commandResponse c i ≠ .error .invalidArgument
    | .dec28 _ _ => True) ∧
  (∃ w n, readStatus (commandResponse base28 (.rem w n)) = 0) ∧ (∃ w n, readStatus (commandResponse base28 (.rem w n)) = 1) ∧
  (∃ w, readStatus (commandResponse base28 (.cvt w)) = 0) ∧ (∃ w, readStatus (commandResponse base28 (.cvt w)) = 1) ∧
  (∃ x, readStatus (commandResponse base28 (.encode x)) = 0) ∧ (∃ x, readStatus (commandResponse base28 (.encode x)) = 1) ∧
  (∃ l s, readStatus (commandResponse base28 (.dec28 l s)) = 0) ∧ (∃ l s, readStatus (commandResponse base28 (.dec28 l s)) = 1) ∧
  (∃ l s, readStatus (commandResponse base28 (.dec28 l s)) = 2) ∧
  (∃ l s, readStatus (commandResponse base28 (.decode l s)) = 0) ∧ (∃ l s, readStatus (commandResponse base28 (.decode l s)) = 2) ∧
  (∀ op : BitVec 4, ∃ w : CmdWord,
    w.extractLsb 3 0 = op ∧ (∃ e, decode w = .error e) ∧ readStatus (respond base28 w) = 1)

/-- R26: only `VAL28` sets `FLAG`. -/
def Obligations.OnlyVal28SetsTheFlag : Prop :=
  ∀ (i : Instr) (s t : State) (r : ResultWord), exec i s = .next t → t.answered = s.answered ++ [.ok true r] →
    r = 0 ∧ ∃ len str, i = .val28 len str

/-- R75, R76: the fields of the response word, the codes, and that an error response has no `FLAG` and no `R` to read (R35). The
zeros of a printed error word are R75's printing convention (log entry 6). -/
def Obligations.ResponseWordFields : Prop :=
  (∀ (flag : Bool) (r : ResultWord),
    (printWord (.ok flag r)).extractLsb 1 0 = 0 ∧ (printWord (.ok flag r)).getLsbD 2 = flag ∧
    (printWord (.ok flag r)).extractLsb 15 3 = 0 ∧ (printWord (.ok flag r)).extractLsb 63 16 = r ∧
    readStatus (.ok flag r) = 0 ∧ readFlag (.ok flag r) = .ok flag ∧ readResult (.ok flag r) = .ok r) ∧
  printWord (.error .invalidArgument) = 1 ∧ readStatus (.error .invalidArgument) = 1 ∧
  printWord (.error .malformedInput) = 2 ∧ readStatus (.error .malformedInput) = 2 ∧
  (∀ kind : ErrorKind, readFlag (.error kind) = .error .noValue ∧ readResult (.error kind) = .error .noValue) ∧
  (∀ r : Response, readStatus r ≠ 3)

/-- R35, R75, R76: a response word is read back as the response it carries; in an error response the bits of `FLAG` and `R` say
nothing; status 3 and nonzero reserved bits are no response. -/
def Obligations.ResponseWordReadsBack : Prop :=
  (∀ r : Response, readWord (printWord r) = some r) ∧
  (∀ v w : RspWord, v.extractLsb 1 0 = w.extractLsb 1 0 → v.extractLsb 15 3 = w.extractLsb 15 3 →
    v.extractLsb 1 0 ≠ 0 → readWord v = readWord w) ∧
  (∀ w : RspWord, readWord w = none ↔ w.extractLsb 1 0 = 3 ∨ w.extractLsb 15 3 ≠ 0)

/-- R82: each of B28's names is the command of its mnemonic. -/
def Obligations.AliasesNameTheirCommands : Prop :=
  ∀ pair ∈ [("multiply", "MUL"), ("remainder", "REM"), ("toFixedWidthInteger", "CVT"), ("obfuscate", "OBF"),
      ("deobfuscate", "DEOBF"), ("encodeBase28", "ENC28"), ("decodeBase28", "DEC28"), ("validateBase28", "VAL28"),
      ("encode", "ENCODE"), ("decode", "DECODE")],
    (opcodeNamed pair.1.toList).isSome ∧ opcodeNamed pair.1.toList = opcodeNamed pair.2.toList
end

