-- ==== Sys2Proof/Laws/Decode.lean ====
section
/-! SUPPORT. The algebra of command words: what a placed field, a field read back and a format's mask do to each other. -/

namespace Sys2Proof

/-! ## Opcodes -/

theorem opcodeNumber_opcodeOf (w : CmdWord) : opcodeNumber (opcodeOf w) = w.extractLsb' 0 4 := by
  apply BitVec.eq_of_getLsbD_eq
  intro i hi
  rw [BitVec.getLsbD_extractLsb']
  have hcases : i = 0 ∨ i = 1 ∨ i = 2 ∨ i = 3 := by omega
  unfold opcodeOf
  cases h3 : w.getLsbD 3 <;> cases h2 : w.getLsbD 2 <;> cases h1 : w.getLsbD 1 <;> cases h0 : w.getLsbD 0 <;>
    (rcases hcases with rfl | rfl | rfl | rfl <;> simp only [*, Nat.zero_add] <;> decide)

theorem opcodeNumber_inj : ∀ {a b : Opcode}, opcodeNumber a = opcodeNumber b → a = b := by
  intro a b
  cases a <;> cases b <;> decide

theorem opcodeOf_eq {w : CmdWord} {op : Opcode} (h : w.extractLsb' 0 4 = opcodeNumber op) : opcodeOf w = op :=
  opcodeNumber_inj (by rw [opcodeNumber_opcodeOf, h])

/-! ## Decoding -/

theorem decode_of_row {w : CmdWord} {op : Opcode} (h : w.extractLsb' 0 4 = opcodeNumber op)
    (hm : w &&& formatMask (formatOf op) = (opcodeNumber op).setWidth 96) : decode w = .ok (withOperands op w) := by
  simp only [decode, opcodeOf_eq h, if_pos hm]

theorem decode_of_mustBeZero {w : CmdWord} {op : Opcode} (h : w.extractLsb' 0 4 = opcodeNumber op)
    (hm : w &&& formatMask (formatOf op) ≠ (opcodeNumber op).setWidth 96) : decode w = .error (.mustBeZero op) := by
  simp only [decode, opcodeOf_eq h, if_neg hm]

/-- All a successful decoding says. -/
theorem decode_eq_ok {w : CmdWord} {i : Instr} (h : decode w = .ok i) :
    w &&& formatMask (formatOf (opcodeOf w)) = (opcodeNumber (opcodeOf w)).setWidth 96 ∧ i = withOperands (opcodeOf w) w := by
  unfold decode at h
  split at h
  · rename_i hm
    cases h
    exact ⟨hm, rfl⟩
  · cases h

/-! ## Fields and masks -/

theorem getLsbD_place {n : Nat} (lo : Nat) (v : BitVec n) (i : Nat) :
    (place lo v).getLsbD i = (decide (i < 96) && decide (lo ≤ i) && v.getLsbD (i - lo)) := by
  simp only [place, BitVec.getLsbD_shiftLeft, BitVec.getLsbD_setWidth]
  by_cases h : i < 96
  · have hs : i - lo < 96 := by omega
    by_cases hl : i < lo
    · simp [hl, Nat.not_le.mpr hl]
    · simp [h, hl, Nat.not_lt.mp hl, hs]
  · simp [h]

theorem place_zero (op : BitVec 4) : place 0 op = op.setWidth 96 := by
  simp [place]

/-- A field reads back what was placed there. -/
theorem extract_place_same {n : Nat} (lo : Nat) (v : BitVec n) (h : lo + n ≤ 96) :
    (place lo v).extractLsb' lo n = v := by
  apply BitVec.eq_of_getLsbD_eq
  intro i hi
  rw [BitVec.getLsbD_extractLsb', getLsbD_place, Nat.add_sub_cancel_left]
  simp only [hi, show lo + i < 96 by omega, Nat.le_add_right, decide_true, Bool.true_and]

/-- A field reads zero where another one was placed. -/
theorem extract_place_other {m : Nat} (lo n lo' : Nat) (v : BitVec m) (h : lo' + m ≤ lo ∨ lo + n ≤ lo') :
    (place lo' v).extractLsb' lo n = 0#n := by
  apply BitVec.eq_of_getLsbD_eq
  intro i hi
  rw [BitVec.getLsbD_extractLsb', getLsbD_place, BitVec.getLsbD_zero]
  by_cases hl : lo' ≤ lo + i
  · rw [BitVec.getLsbD_of_ge v _ (by omega)]
    simp only [Bool.and_false]
  · simp only [hl, decide_false, Bool.and_false, Bool.false_and]

/-- A mask without the field's bits removes the field. -/
theorem place_and_zero {n : Nat} (lo : Nat) (v : BitVec n) (m : CmdWord) (h : m.extractLsb' lo n = 0#n) :
    place lo v &&& m = 0#96 := by
  apply BitVec.eq_of_getLsbD_eq
  intro i hi
  rw [BitVec.getLsbD_and, getLsbD_place, BitVec.getLsbD_zero]
  by_cases hl : lo ≤ i
  · by_cases hn : i - lo < n
    · have hb := congrArg (fun x => x.getLsbD (i - lo)) h
      simp only [BitVec.getLsbD_extractLsb', hn, decide_true, Bool.true_and, BitVec.getLsbD_zero,
        Nat.add_sub_cancel' hl] at hb
      rw [hb, Bool.and_false]
    · rw [BitVec.getLsbD_of_ge v _ (by omega)]
      simp only [Bool.and_false, Bool.false_and]
  · simp only [hl, decide_false, Bool.and_false, Bool.false_and]

/-- A mask with all the field's bits keeps the field. -/
theorem place_and_ones {n : Nat} (lo : Nat) (v : BitVec n) (m : CmdWord) (h : m.extractLsb' lo n = BitVec.allOnes n) :
    place lo v &&& m = place lo v := by
  apply BitVec.eq_of_getLsbD_eq
  intro i hi
  rw [BitVec.getLsbD_and, getLsbD_place]
  by_cases hl : lo ≤ i
  · by_cases hn : i - lo < n
    · have hb := congrArg (fun x => x.getLsbD (i - lo)) h
      simp only [BitVec.getLsbD_extractLsb', hn, decide_true, Bool.true_and, BitVec.getLsbD_allOnes,
        Nat.add_sub_cancel' hl] at hb
      rw [hb, Bool.and_true]
    · rw [BitVec.getLsbD_of_ge v _ (by omega)]
      simp only [Bool.and_false, Bool.false_and]
  · simp only [hl, decide_false, Bool.and_false, Bool.false_and]

/-- What a window keeps of a word is the field of that window, in its place. -/
theorem and_window (w : CmdWord) (lo n : Nat) : w &&& place lo (BitVec.allOnes n) = place lo (w.extractLsb' lo n) := by
  apply BitVec.eq_of_getLsbD_eq
  intro i hi
  rw [BitVec.getLsbD_and, getLsbD_place, getLsbD_place, BitVec.getLsbD_extractLsb', BitVec.getLsbD_allOnes]
  by_cases hl : lo ≤ i
  · simp only [hi, hl, decide_true, Bool.true_and, Nat.add_sub_cancel' hl, Bool.and_comm]
  · simp only [hl, decide_false, Bool.and_false, Bool.false_and]

theorem or_and_mask (v w m : CmdWord) : (v ||| w) &&& m = v &&& m ||| w &&& m := by
  rw [BitVec.and_comm, BitVec.and_or_distrib_left, BitVec.and_comm m v, BitVec.and_comm m w]

/-- A word is what a mask keeps of it and what the mask's complement keeps. -/
theorem and_or_and_not (w m : CmdWord) : (w &&& m) ||| (w &&& ~~~m) = w := by
  rw [← BitVec.and_or_distrib_left, BitVec.or_not_self, BitVec.and_allOnes]

end Sys2Proof
end

