-- ==== Sys2Proof/Laws/Ops.lean ====
section
/-! SUPPORT. What the shared operations can do, said once: `answer`, the meanings over it, and a step's choice of command. -/

namespace Sys2Proof.Machine

variable {s t : State} {w : CmdWord} {rest : List CmdWord} {r : Response}

/-! ## A usable constant set -/

theorem Usable_sizes {c : Cfg} (h : c.Usable) :
    c.bits = 28 ∧ c.modulus = 2 ^ 28 ∧ c.maxval = 2 ^ 28 - 1 ∧ c.rot < 28 ∧ c.radix = 28 ∧ c.toklen = 6 := by
  obtain ⟨⟨hm, hv, hr, -⟩, hb, hx, ht⟩ := h
  rw [hb] at hm hr
  exact ⟨hb, hm, by rw [hv, hm], hr, hx, ht⟩

theorem Usable_factors {c : Cfg} (h : c.Usable) :
    c.xorMask < 2 ^ 28 ∧ c.coprime < 2 ^ 17 ∧ 0 < c.inverse ∧ c.inverse < 2 ^ 28 ∧ c.coprime * c.inverse % 2 ^ 28 = 1 := by
  obtain ⟨-, hm, -⟩ := Usable_sizes h
  obtain ⟨⟨-, -, -, hx, hc, hi, hp, -⟩, -⟩ := h
  rw [hm] at hx hi hp
  exact ⟨hx, hc.2, hi.1, hi.2, hp⟩

theorem Usable_alphabet {c : Cfg} (h : c.Usable) :
    c.alphabet.length = 28 ∧ c.alphabet.Nodup ∧ ∀ b ∈ c.alphabet, ¬ LowerCase b := by
  obtain ⟨-, -, -, -, hx, -⟩ := Usable_sizes h
  obtain ⟨⟨-, -, -, -, -, -, -, ha, -⟩, -⟩ := h
  rwa [hx] at ha

theorem base28_usable : base28.Usable := by decide

/-! ## Delivering a response -/

theorem answer_of_ready (h : Ready s w rest) : answer r s = .next (afterAnswer s rest r) := by
  simp only [answer, if_pos h.1.1, if_pos h.1.2, h.2]

theorem answer_next (h : answer r s = .next t) :
    ∃ w rest, Ready s w rest ∧ t = afterAnswer s rest r := by
  unfold answer at h
  split at h
  · split at h
    · rename_i h1 h2
      cases hp : s.pending with
      | nil => simp [hp] at h
      | cons w rest =>
        simp only [hp, Host.Outcome.next.injEq] at h
        exact ⟨w, rest, ⟨⟨h1, h2⟩, hp⟩, h.symm⟩
    · cases h
  · cases h

theorem answer_of_illFormed (h : ¬ s.rom.WellFormed) : answer r s = .refused .illFormedCfg := if_neg h

/-! ## Meanings -/

/-- Every meaning delivers its command's response. -/
theorem exec_eq_answer (i : Instr) (s : State) : exec i s = answer (commandResponse s.rom i) s := by
  cases i <;> rfl

theorem exec_of_ready (h : Ready s w rest) (i : Instr) :
    exec i s = .next (afterAnswer s rest (commandResponse s.rom i)) := by
  rw [exec_eq_answer, answer_of_ready h]

/-- All a meaning that answers can do. -/
theorem exec_next {i : Instr} (h : exec i s = .next t) :
    ∃ w rest, Ready s w rest ∧ t = afterAnswer s rest (commandResponse s.rom i) := by
  rw [exec_eq_answer] at h
  exact answer_next h

/-! ## A step -/

/-- A step on a pending command delivers the block's response to its word, or is refused with `answer`. -/
theorem step_eq_answer (h : s.pending = w :: rest) : step s = answer (respond s.rom w) s := by
  simp only [step, nextCommand, h, List.head?_cons, respond]
  cases decode w with
  | ok i => exact exec_eq_answer i s
  | error e => rfl

theorem step_of_empty (h : s.pending = []) : step s = .next s := by
  simp [step, nextCommand, h, idle]

end Sys2Proof.Machine
end

