-- ==== Sys2Proof/Laws/PerInstr.lean ====
section
/-! SUPPORT. The family EncodingRow: every command's word stands in its row of R78, opcode bits and must-be-zero bits as R73 fixes them. -/

namespace Sys2Proof.Laws.EncodingRow

/-- The opcode of a command (R78). -/
def row : Instr → Opcode
  | .mul _ _ => .mul
  | .rem _ _ => .rem
  | .red28 _ => .red28
  | .cvt _ => .cvt
  | .mulc _ => .mulc
  | .muli _ => .muli
  | .ror _ => .ror
  | .rol _ => .rol
  | .xorm _ => .xorm
  | .obf _ => .obf
  | .deobf _ => .deobf
  | .enc28 _ => .enc28
  | .dec28 _ _ => .dec28
  | .val28 _ _ => .val28
  | .encode _ => .encode
  | .decode _ _ => .decode

/-- `c AND mask = match` for the row of the command's own opcode (R85). -/
def Statement (i : Instr) : Prop :=
  (encode i).extractLsb' 0 4 = opcodeNumber (row i) ∧
  encode i &&& formatMask (formatOf (row i)) = (opcodeNumber (row i)).setWidth 96

theorem formatA (op : BitVec 4) (a : BitVec 28) :
    (wordA op a).extractLsb' 0 4 = op ∧ wordA op a &&& formatMask .A = op.setWidth 96 := by
  constructor
  · simp only [wordA, BitVec.extractLsb'_or]
    rw [extract_place_same 0 op (by decide), extract_place_other 0 4 _ _ (by decide)]
    simp only [BitVec.or_zero]
  · simp only [wordA, or_and_mask]
    rw [place_and_ones 0 op _ (by decide), place_and_zero _ _ _ (by decide), place_zero]
    simp only [BitVec.or_zero]

theorem formatM (op : BitVec 4) (a : BitVec 28) (b : BitVec 17) :
    (wordM op a b).extractLsb' 0 4 = op ∧ wordM op a b &&& formatMask .M = op.setWidth 96 := by
  constructor
  · simp only [wordM, BitVec.extractLsb'_or]
    rw [extract_place_same 0 op (by decide), extract_place_other 0 4 _ _ (by decide), extract_place_other 0 4 _ _ (by decide)]
    simp only [BitVec.or_zero]
  · simp only [wordM, or_and_mask]
    rw [place_and_ones 0 op _ (by decide), place_and_zero _ _ _ (by decide), place_and_zero _ _ _ (by decide), place_zero]
    simp only [BitVec.or_zero]

theorem formatW (op : BitVec 4) (w : BitVec 45) :
    (wordW op w).extractLsb' 0 4 = op ∧ wordW op w &&& formatMask .W = op.setWidth 96 := by
  constructor
  · simp only [wordW, BitVec.extractLsb'_or]
    rw [extract_place_same 0 op (by decide), extract_place_other 0 4 _ _ (by decide)]
    simp only [BitVec.or_zero]
  · simp only [wordW, or_and_mask]
    rw [place_and_ones 0 op _ (by decide), place_and_zero _ _ _ (by decide), place_zero]
    simp only [BitVec.or_zero]

theorem formatD (op : BitVec 4) (w : BitVec 45) (n : BitVec 29) :
    (wordD op w n).extractLsb' 0 4 = op ∧ wordD op w n &&& formatMask .D = op.setWidth 96 := by
  constructor
  · simp only [wordD, BitVec.extractLsb'_or]
    rw [extract_place_same 0 op (by decide), extract_place_other 0 4 _ _ (by decide), extract_place_other 0 4 _ _ (by decide)]
    simp only [BitVec.or_zero]
  · simp only [wordD, or_and_mask]
    rw [place_and_ones 0 op _ (by decide), place_and_zero _ _ _ (by decide), place_and_zero _ _ _ (by decide), place_zero]
    simp only [BitVec.or_zero]

theorem formatX (op : BitVec 4) (x : BitVec 32) :
    (wordX op x).extractLsb' 0 4 = op ∧ wordX op x &&& formatMask .X = op.setWidth 96 := by
  constructor
  · simp only [wordX, BitVec.extractLsb'_or]
    rw [extract_place_same 0 op (by decide), extract_place_other 0 4 _ _ (by decide)]
    simp only [BitVec.or_zero]
  · simp only [wordX, or_and_mask]
    rw [place_and_ones 0 op _ (by decide), place_and_zero _ _ _ (by decide), place_zero]
    simp only [BitVec.or_zero]

theorem formatS (op : BitVec 4) (len : BitVec 4) (str : BitVec 64) :
    (wordS op len str).extractLsb' 0 4 = op ∧ wordS op len str &&& formatMask .S = op.setWidth 96 := by
  constructor
  · simp only [wordS, BitVec.extractLsb'_or]
    rw [extract_place_same 0 op (by decide), extract_place_other 0 4 _ _ (by decide), extract_place_other 0 4 _ _ (by decide)]
    simp only [BitVec.or_zero]
  · simp only [wordS, or_and_mask]
    rw [place_and_ones 0 op _ (by decide), place_and_zero _ _ _ (by decide), place_and_zero _ _ _ (by decide), place_zero]
    simp only [BitVec.or_zero]

theorem mul (a : BitVec 28) (b : BitVec 17) : Statement (.mul a b) := formatM _ _ _
theorem rem (w : BitVec 45) (n : BitVec 29) : Statement (.rem w n) := formatD _ _ _
theorem red28 (w : BitVec 45) : Statement (.red28 w) := formatW _ _
theorem cvt (w : BitVec 45) : Statement (.cvt w) := formatW _ _
theorem mulc (a : BitVec 28) : Statement (.mulc a) := formatA _ _
theorem muli (a : BitVec 28) : Statement (.muli a) := formatA _ _
theorem ror (a : BitVec 28) : Statement (.ror a) := formatA _ _
theorem rol (a : BitVec 28) : Statement (.rol a) := formatA _ _
theorem xorm (a : BitVec 28) : Statement (.xorm a) := formatA _ _
theorem obf (a : BitVec 28) : Statement (.obf a) := formatA _ _
theorem deobf (a : BitVec 28) : Statement (.deobf a) := formatA _ _
theorem enc28 (a : BitVec 28) : Statement (.enc28 a) := formatA _ _
theorem dec28 (len : BitVec 4) (str : BitVec 64) : Statement (.dec28 len str) := formatS _ _ _
theorem val28 (len : BitVec 4) (str : BitVec 64) : Statement (.val28 len str) := formatS _ _ _
theorem encode (x : BitVec 32) : Statement (.encode x) := formatX _ _
theorem decode (len : BitVec 4) (str : BitVec 64) : Statement (.decode len str) := formatS _ _ _

end Sys2Proof.Laws.EncodingRow
end

