-- ==== Sys2Proof/Laws/State.lean ====
section
/-! SUPPORT. One lemma per field per update of State, each true by unfolding one update. -/

namespace Sys2Proof.Machine

@[simp] theorem present_rom (w : CmdWord) (s : State) : (present w s).rom = s.rom := rfl
@[simp] theorem present_pending (w : CmdWord) (s : State) : (present w s).pending = s.pending ++ [w] := rfl
@[simp] theorem present_answered (w : CmdWord) (s : State) : (present w s).answered = s.answered := rfl

@[simp] theorem withFetchWord_rom (s : State) (n w : Nat) : (s.withFetchWord n w).rom = s.rom := rfl
@[simp] theorem withFetchWord_pending (s : State) (n w : Nat) :
    (s.withFetchWord n w).pending = BitVec.ofNat 96 (w % 2 ^ n) :: s.pending := rfl
@[simp] theorem withFetchWord_answered (s : State) (n w : Nat) : (s.withFetchWord n w).answered = s.answered := rfl

@[simp] theorem reset_rom : State.reset.rom = base28 := rfl
@[simp] theorem reset_pending : State.reset.pending = [] := rfl
@[simp] theorem reset_answered : State.reset.answered = [] := rfl

end Sys2Proof.Machine
end

