-- ==== Sys2Proof/Laws/Text.lean ====
section
/-! SUPPORT. What the base-28 units do: the alphabet as a table without repeats, packed characters, the digits of a number and the
value of a string. -/

namespace Sys2Proof.Machine

/-! ## Symbols and digits -/

theorem position_eq_some {b : Byte} : ∀ {l : List Byte} {i j : Nat}, position b i l = some j → ∃ k, j = i + k ∧ l[k]? = some b
  | [], i, j, h => by simp [position] at h
  | c :: cs, i, j, h => by
    unfold position at h
    split at h
    · rename_i hb
      exact ⟨0, by simpa using h.symm, by simp [hb]⟩
    · obtain ⟨k, hk, hl⟩ := position_eq_some h
      exact ⟨k + 1, by omega, by simpa using hl⟩

theorem position_of_nodup {b : Byte} : ∀ {l : List Byte} {i k : Nat}, l.Nodup → l[k]? = some b → position b i l = some (i + k)
  | [], i, k, _, h => by simp at h
  | c :: cs, i, 0, hn, h => by
    have hc : c = b := by simpa using h
    simp [position, hc]
  | c :: cs, i, k + 1, hn, h => by
    obtain ⟨hc, hcs⟩ := List.nodup_cons.mp hn
    have hk : cs[k]? = some b := by simpa using h
    have hne : b ≠ c := by
      rintro rfl
      exact hc (List.mem_of_getElem? hk)
    rw [position, if_neg hne, position_of_nodup hcs hk]
    congr 1
    omega

section Alphabet

variable {c : Cfg} {b : Byte} {d : Nat}

/-- `index` is the position of the folded code (R142). -/
theorem index_eq_some (hc : c.Usable) : index c b = some d ↔ c.alphabet[d]? = some (upper b) := by
  constructor
  · intro h
    obtain ⟨k, hk, hl⟩ := position_eq_some h
    rwa [hk, Nat.zero_add]
  · intro h
    have hp := position_of_nodup (i := 0) (Usable_alphabet hc).2.1 h
    rwa [Nat.zero_add] at hp

theorem alphabet_symbol (hc : c.Usable) (h : d < 28) : c.alphabet[d]? = some (symbol c d) := by
  simp [symbol, List.getD, (Usable_alphabet hc).1, h]

theorem symbol_mem (hc : c.Usable) (h : d < 28) : symbol c d ∈ c.alphabet := List.mem_of_getElem? (alphabet_symbol hc h)

theorem index_symbol (hc : c.Usable) (h : d < 28) : index c (symbol c d) = some d := by
  rw [index_eq_some hc, upper, if_neg ((Usable_alphabet hc).2.2 _ (symbol_mem hc h)), alphabet_symbol hc h]

theorem symbol_of_index (hc : c.Usable) (h : index c b = some d) : d < 28 ∧ symbol c d = upper b := by
  rw [index_eq_some hc] at h
  have hd : d < 28 := by
    rw [← (Usable_alphabet hc).1]
    exact (List.getElem?_eq_some_iff.mp h).1
  rw [alphabet_symbol hc hd] at h
  exact ⟨hd, by simpa using h⟩

end Alphabet

/-! ## Packed characters -/

theorem packChars_lt : ∀ cs : List Byte, packChars cs < 256 ^ cs.length
  | [] => by simp [packChars]
  | b :: bs => by
    have hb := b.isLt
    have hbs := packChars_lt bs
    simp only [packChars, List.length_cons, pow_succ]
    omega

theorem packChars_digit : ∀ (cs : List Byte) (k : Nat), packChars cs / 256 ^ k % 256 = (cs.getD k 0).toNat
  | [], k => by simp [packChars]
  | b :: bs, 0 => by
    have hb := b.isLt
    simp [packChars]
    omega
  | b :: bs, k + 1 => by
    have hb := b.isLt
    have hs : packChars (b :: bs) / 256 ^ (k + 1) = packChars bs / 256 ^ k := by
      rw [pow_succ', ← Nat.div_div_eq_div_mul]
      congr 1
      simp only [packChars]
      omega
    rw [hs, packChars_digit bs k]
    simp

/-- Character `k` of a packed token (R54). -/
theorem resultChar_packChars {cs : List Byte} {k : Nat} (h : cs.length = 6) :
    resultChar (BitVec.ofNat 48 (packChars cs)) k = cs.getD k 0 := by
  apply BitVec.eq_of_toNat_eq
  have hlt := packChars_lt cs
  rw [h] at hlt
  have hm : packChars cs % 2 ^ 48 = packChars cs := Nat.mod_eq_of_lt (by simpa using hlt)
  rw [← packChars_digit, resultChar, BitVec.extractLsb'_toNat, BitVec.toNat_ofNat, hm, Nat.shiftRight_eq_div_pow, pow_mul]
  rfl

/-- A token copied from a result field into the field `S` keeps its characters (R54). -/
theorem charAt_setWidth (r : ResultWord) {k : Nat} (h : k < 6) : charAt (r.setWidth 64) k = resultChar r k := by
  apply BitVec.eq_of_getLsbD_eq
  intro i hi
  have hk : 8 * k + i < 64 := by omega
  simp only [charAt, resultChar, BitVec.getLsbD_extractLsb', BitVec.getLsbD_setWidth, hk, decide_true, Bool.true_and]

@[simp] theorem length_chars (n : Nat) (str : BitVec 64) : (chars n str).length = n := by simp [chars]

theorem getD_chars {n k : Nat} (str : BitVec 64) (h : k < n) : (chars n str).getD k 0 = charAt str k := by simp [chars, h]

/-! ## The encoder -/

/-- The last `t` base-`RADIX` digits of a number as symbols, before the symbols already written. -/
def lastDigits (c : Cfg) : Nat → Nat → List Byte → List Byte
  | 0, _, cs => cs
  | t + 1, n, cs => lastDigits c t (n / c.radix) (symbol c (n % c.radix) :: cs)

theorem lastDigits_zero (c : Cfg) : ∀ (t : Nat) (cs : List Byte), lastDigits c t 0 cs = List.replicate t (symbol c 0) ++ cs
  | 0, _ => rfl
  | t + 1, cs => by simp [lastDigits, lastDigits_zero c t, List.replicate_succ']

/-- The two loops of R144 together write all digits of the number, leading zeros included. -/
theorem padToken_prependDigits (c : Cfg) : ∀ (t n : Nat) (cs : List Byte), cs.length + t = c.toklen →
    padToken c (prependDigits c t n cs) = lastDigits c t n cs
  | 0, n, cs, h => by
    simp [padToken, prependDigits, lastDigits]
    omega
  | t + 1, n, cs, h => by
    unfold prependDigits
    split
    · rename_i h0
      rw [h0, lastDigits_zero, padToken]
      congr 2
      omega
    · rw [padToken_prependDigits c t _ _ (by simp; omega)]
      rfl

/-- The closed form of R144. -/
theorem encodeText_eq {c : Cfg} (hc : c.Usable) (n : Nat) :
    encodeText c n = (List.range 6).map (fun k => symbol c (n / 28 ^ (5 - k) % 28)) := by
  obtain ⟨-, -, -, -, hr, ht⟩ := Usable_sizes hc
  rw [encodeText, padToken_prependDigits _ _ _ _ (by simp), ht]
  simp [lastDigits, hr, Nat.div_div_eq_div_mul, List.range, List.range.loop]

@[simp] theorem length_encodeText {c : Cfg} (hc : c.Usable) (n : Nat) : (encodeText c n).length = 6 := by
  simp [encodeText_eq hc]

/-! ## The decoder -/

/-- A string has digits when every character has one, and then they are the characters' (R146). -/
theorem digits_eq_some {c : Cfg} : ∀ {cs : List Byte} {ds : List Nat},
    digits c cs = some ds ↔ ds.length = cs.length ∧ ∀ k, k < cs.length → index c (cs.getD k 0) = ds[k]?
  | [], ds => by cases ds <;> simp [digits]
  | b :: bs, [] => by
    simp only [digits]
    split <;> simp
  | b :: bs, d :: ds => by
    have ih := digits_eq_some (c := c) (cs := bs) (ds := ds)
    constructor
    · intro h
      unfold digits at h
      split at h
      · rename_i h1 h2
        simp only [Option.some.injEq, List.cons.injEq] at h
        obtain ⟨rfl, rfl⟩ := h
        obtain ⟨hl, hk⟩ := ih.mp h2
        refine ⟨by simp [hl], fun k h => ?_⟩
        cases k with
        | zero => simpa using h1
        | succ k => simpa using hk k (by simpa using h)
      · cases h
    · rintro ⟨hl, hk⟩
      have h0 : index c b = some d := by simpa using hk 0 (by simp)
      have hs := ih.mpr ⟨by simpa using hl, fun k h => by simpa using hk (k + 1) (by simpa using h)⟩
      simp [digits, h0, hs]

theorem digits_eq_none {c : Cfg} : ∀ {cs : List Byte}, digits c cs = none ↔ ∃ k, k < cs.length ∧ index c (cs.getD k 0) = none
  | [] => by simp [digits]
  | b :: bs => by
    have ih := digits_eq_none (c := c) (cs := bs)
    cases hb : index c b with
    | none =>
      simp only [digits, hb, true_iff]
      exact ⟨0, by simp, by simpa using hb⟩
    | some d =>
      have hrest : digits c (b :: bs) = none ↔ digits c bs = none := by
        cases h : digits c bs <;> simp [digits, hb, h]
      rw [hrest, ih]
      constructor
      · rintro ⟨k, hk, h⟩
        exact ⟨k + 1, by simpa using hk, by simpa using h⟩
      · rintro ⟨k, hk, h⟩
        cases k with
        | zero => simp [hb] at h
        | succ k => exact ⟨k, by simpa using hk, by simpa using h⟩

theorem digits_chars_eq_some {c : Cfg} {n : Nat} {str : BitVec 64} {ds : List Nat} :
    digits c (chars n str) = some ds ↔ ds.length = n ∧ ∀ k, k < n → index c (charAt str k) = ds[k]? := by
  rw [digits_eq_some, length_chars]
  refine and_congr_right fun _ => forall₂_congr fun k hk => ?_
  rw [getD_chars str hk]

theorem digits_chars_eq_none {c : Cfg} {n : Nat} {str : BitVec 64} :
    digits c (chars n str) = none ↔ ∃ k, k < n ∧ index c (charAt str k) = none := by
  rw [digits_eq_none, length_chars]
  refine exists_congr fun k => and_congr_right fun hk => ?_
  rw [getD_chars str hk]

theorem digits_lt {c : Cfg} (hc : c.Usable) {cs : List Byte} {ds : List Nat} (h : digits c cs = some ds) : ∀ d ∈ ds, d < 28 := by
  intro d hd
  obtain ⟨hl, hk⟩ := digits_eq_some.mp h
  obtain ⟨k, hlt, rfl⟩ := List.mem_iff_getElem.mp hd
  have hi := hk k (by omega)
  rw [List.getElem?_eq_getElem hlt] at hi
  exact (symbol_of_index hc hi).1

theorem horner_append (c : Cfg) (ds : List Nat) (d : Nat) : horner c (ds ++ [d]) = horner c ds * c.radix + d := by
  simp [horner]

theorem horner_lt {c : Cfg} (hc : c.Usable) (ds : List Nat) (h : ∀ d ∈ ds, d < 28) : horner c ds < 28 ^ ds.length := by
  have hr := (Usable_sizes hc).2.2.2.2.1
  induction ds using List.reverseRecOn with
  | nil => simp [horner]
  | append_singleton ds d ih =>
    have h1 := ih (fun x hx => h x (by simp [hx]))
    have h2 := h d (by simp)
    rw [horner_append, hr, List.length_append, List.length_singleton, pow_succ]
    omega

/-- The accumulation of R146 is the sum its comment gives. -/
theorem horner_eq_sum {c : Cfg} (hc : c.Usable) (ds : List Nat) :
    horner c ds = ((List.range ds.length).map (fun k => ds.getD k 0 * 28 ^ (ds.length - 1 - k))).sum := by
  have hr := (Usable_sizes hc).2.2.2.2.1
  induction ds using List.reverseRecOn with
  | nil => simp [horner]
  | append_singleton ds d ih =>
    rw [horner_append, hr, ih, List.length_append, List.length_singleton, List.range_succ, List.map_append, List.sum_append]
    congr 1
    · rw [← List.sum_map_mul_right]
      congr 1
      apply List.map_congr_left
      intro k hk
      have hlt : k < ds.length := by simpa using hk
      simp only [List.getD_eq_getElem?_getD, List.getElem?_append_left hlt]
      rw [show ds.length + 1 - 1 - k = (ds.length - 1 - k) + 1 by omega, pow_succ, mul_assoc]
    · simp

/-- The strict check of R150. -/
theorem validToken_iff {c : Cfg} (hc : c.Usable) {len : BitVec 4} {str : BitVec 64} :
    validToken c len str = true ↔ len = 6 ∧ ∃ ds, digits c (chars 6 str) = some ds := by
  have ht := (Usable_sizes hc).2.2.2.2.2
  have h6 : len.toNat = 6 ↔ len = 6 :=
    ⟨fun h => BitVec.eq_of_toNat_eq (by simpa using h), fun h => by rw [h]; rfl⟩
  simp only [validToken, isToken, ht, length_chars, decide_true, Bool.true_and, Bool.and_eq_true, decide_eq_true_eq, h6,
    Option.isSome_iff_exists]

end Sys2Proof.Machine
end

