-- ==== Sys2Proof/Laws/Units.lean ====
section
/-! SUPPORT. What the arithmetic and permutation units do: the range of each result, the bits of a rotation, and which units undo each
other. -/

namespace Sys2Proof.Machine

/-! ## Numbers in the result field -/

theorem number_toNat {n : Nat} (v : BitVec n) : number v.toNat = .ok false (v.setWidth 48) := by
  have h : BitVec.ofNat 48 v.toNat = v.setWidth 48 := by
    apply BitVec.eq_of_toNat_eq
    simp
  rw [number, h]

theorem number_of_lt {v : Nat} (h : v < 2 ^ 28) : number v = .ok false ((BitVec.ofNat 28 v).setWidth 48) := by
  rw [← number_toNat, BitVec.toNat_ofNat, Nat.mod_eq_of_lt h]

/-- The result field holds every number below 2^48 exactly: no command's result is truncated (R107). -/
theorem toNat_ofNat48 {v : Nat} (h : v < 2 ^ 48) : (BitVec.ofNat 48 v).toNat = v := by
  rw [BitVec.toNat_ofNat, Nat.mod_eq_of_lt h]

/-! ## Rotations within 28 bits -/

theorem rotation_split {k : Nat} (hk : k < 28) : 2 ^ 28 = 2 ^ k * 2 ^ (28 - k) := by
  rw [← pow_add, Nat.add_sub_cancel' hk.le]

theorem rotation_high {k v : Nat} (hk : k < 28) (hv : v < 2 ^ 28) : v / 2 ^ k < 2 ^ (28 - k) := by
  rw [Nat.div_lt_iff_lt_mul (by positivity), mul_comm, ← rotation_split hk]
  exact hv

theorem rotl_eq {k : Nat} (v : Nat) (hk : k < 28) : rotl 28 k v = v / 2 ^ (28 - k) + v % 2 ^ (28 - k) * 2 ^ k := by
  rw [rotl, rotation_split hk, mul_comm v, Nat.mul_mod_mul_left]
  ring

theorem rotr_lt {k v : Nat} (hk : k < 28) (hv : v < 2 ^ 28) : rotr 28 k v < 2 ^ 28 := by
  have hh := rotation_high hk hv
  have hm : v % 2 ^ k + 1 ≤ 2 ^ k := Nat.mod_lt _ (by positivity)
  calc rotr 28 k v < 2 ^ (28 - k) + v % 2 ^ k * 2 ^ (28 - k) := by unfold rotr; omega
    _ = (v % 2 ^ k + 1) * 2 ^ (28 - k) := by ring
    _ ≤ 2 ^ k * 2 ^ (28 - k) := Nat.mul_le_mul_right _ hm
    _ = 2 ^ 28 := (rotation_split hk).symm

theorem rotl_high {k v : Nat} (hk : k < 28) (hv : v < 2 ^ 28) : v / 2 ^ (28 - k) < 2 ^ k := by
  rw [Nat.div_lt_iff_lt_mul (by positivity), ← rotation_split hk]
  exact hv

theorem rotl_lt {k v : Nat} (hk : k < 28) (hv : v < 2 ^ 28) : rotl 28 k v < 2 ^ 28 := by
  have hh := rotl_high hk hv
  have hm : v % 2 ^ (28 - k) + 1 ≤ 2 ^ (28 - k) := Nat.mod_lt _ (by positivity)
  rw [rotl_eq v hk]
  calc v / 2 ^ (28 - k) + v % 2 ^ (28 - k) * 2 ^ k < 2 ^ k + v % 2 ^ (28 - k) * 2 ^ k := by omega
    _ = (v % 2 ^ (28 - k) + 1) * 2 ^ k := by ring
    _ ≤ 2 ^ (28 - k) * 2 ^ k := Nat.mul_le_mul_right _ hm
    _ = 2 ^ 28 := by rw [rotation_split hk, mul_comm]

theorem rotl_rotr {k v : Nat} (hk : k < 28) (hv : v < 2 ^ 28) : rotl 28 k (rotr 28 k v) = v := by
  have hh := rotation_high hk hv
  have hd : rotr 28 k v / 2 ^ (28 - k) = v % 2 ^ k := by
    rw [rotr, Nat.add_mul_div_right _ _ (by positivity), Nat.div_eq_of_lt hh, zero_add]
  have hm : rotr 28 k v % 2 ^ (28 - k) = v / 2 ^ k := by
    rw [rotr, Nat.add_mul_mod_self_right, Nat.mod_eq_of_lt hh]
  rw [rotl_eq _ hk, hd, hm, add_comm]
  exact Nat.div_add_mod' v (2 ^ k)

theorem rotr_rotl {k v : Nat} (hk : k < 28) (hv : v < 2 ^ 28) : rotr 28 k (rotl 28 k v) = v := by
  have hh := rotl_high hk hv
  have hd : rotl 28 k v / 2 ^ k = v % 2 ^ (28 - k) := by
    rw [rotl_eq v hk, Nat.add_mul_div_right _ _ (by positivity), Nat.div_eq_of_lt hh, zero_add]
  have hm : rotl 28 k v % 2 ^ k = v / 2 ^ (28 - k) := by
    rw [rotl_eq v hk, Nat.add_mul_mod_self_right, Nat.mod_eq_of_lt hh]
  rw [rotr, hd, hm, add_comm]
  exact Nat.div_add_mod' v (2 ^ (28 - k))

/-- Bit `i` of a rotation right by `k` is bit `i + k` of the operand, around the field (R123). -/
theorem testBit_rotr {k v : Nat} (i : Nat) (hk : k < 28) (hv : v < 2 ^ 28) :
    (rotr 28 k v).testBit i = (decide (i < 28) && v.testBit ((i + k) % 28)) := by
  have hsum : rotr 28 k v = 2 ^ (28 - k) * (v % 2 ^ k) + v / 2 ^ k := by unfold rotr; ring
  rw [hsum, Nat.testBit_two_pow_mul_add _ (rotation_high hk hv)]
  split
  · rw [Nat.testBit_div_two_pow, Nat.mod_eq_of_lt (by omega : i + k < 28)]
    simp [show i < 28 by omega]
  · rw [Nat.testBit_mod_two_pow]
    by_cases h : i < 28
    · rw [show (i + k) % 28 = i - (28 - k) by omega]
      simp [h, show i - (28 - k) < k by omega]
    · simp [h, show ¬ i - (28 - k) < k by omega]

/-- A rotation left by `k` is a rotation right by the rest of the field. -/
theorem rotl_eq_rotr {k : Nat} (v : Nat) (hk : k < 28) : rotl 28 k v = rotr 28 (28 - k) v := by
  rw [rotl_eq v hk, rotr, Nat.sub_sub_self hk.le]

theorem rotl_zero {v : Nat} (hv : v < 2 ^ 28) : rotl 28 0 v = v := by
  rw [rotl, pow_zero, mul_one, Nat.mod_eq_of_lt hv, Nat.sub_zero, Nat.div_eq_of_lt hv, add_zero]

/-! ## The units under a usable constant set -/

section Units

variable {c : Cfg} {v : Nat}

theorem mulForward_lt (hc : c.Usable) : mulForward c v < 2 ^ 28 := by
  rw [mulForward, reduce, (Usable_sizes hc).2.1]
  exact Nat.mod_lt _ (by norm_num)

theorem mulInverse_lt (hc : c.Usable) : mulInverse c v < 2 ^ 28 := by
  rw [mulInverse, reduce, (Usable_sizes hc).2.1]
  exact Nat.mod_lt _ (by norm_num)

theorem rotateRight_eq (hc : c.Usable) : rotateRight c v = rotr 28 c.rot v := by
  rw [rotateRight, (Usable_sizes hc).1]

theorem rotateLeft_eq (hc : c.Usable) : rotateLeft c v = rotl 28 c.rot v := by
  rw [rotateLeft, (Usable_sizes hc).1]

theorem rotateRight_lt (hc : c.Usable) (hv : v < 2 ^ 28) : rotateRight c v < 2 ^ 28 := by
  rw [rotateRight_eq hc]
  exact rotr_lt (Usable_sizes hc).2.2.2.1 hv

theorem rotateLeft_lt (hc : c.Usable) (hv : v < 2 ^ 28) : rotateLeft c v < 2 ^ 28 := by
  rw [rotateLeft_eq hc]
  exact rotl_lt (Usable_sizes hc).2.2.2.1 hv

theorem xorStage_lt (hc : c.Usable) (hv : v < 2 ^ 28) : xorStage c v < 2 ^ 28 :=
  Nat.xor_lt_two_pow hv (Usable_factors hc).1

theorem obfuscate_lt (hc : c.Usable) : obfuscate c v < 2 ^ 28 :=
  xorStage_lt hc (rotateRight_lt hc (mulForward_lt hc))

theorem deobfuscate_lt (hc : c.Usable) : deobfuscate c v < 2 ^ 28 := mulInverse_lt hc

/-- The one congruence behind the permutation: `COPRIME * INVERSE mod 2^28 = 1` (R6, R128). -/
theorem mulInverse_mulForward (hc : c.Usable) (hv : v < 2 ^ 28) : mulInverse c (mulForward c v) = v := by
  have hm := (Usable_sizes hc).2.1
  have hp := (Usable_factors hc).2.2.2.2
  simp only [mulInverse, mulForward, reduce, product, hm]
  rw [Nat.mod_mul_mod, mul_assoc, Nat.mul_mod, hp, mul_one, Nat.mod_mod, Nat.mod_eq_of_lt hv]

theorem mulForward_mulInverse (hc : c.Usable) (hv : v < 2 ^ 28) : mulForward c (mulInverse c v) = v := by
  have hm := (Usable_sizes hc).2.1
  have hp := (Usable_factors hc).2.2.2.2
  simp only [mulInverse, mulForward, reduce, product, hm]
  rw [Nat.mod_mul_mod, mul_assoc, mul_comm c.inverse, Nat.mul_mod, hp, mul_one, Nat.mod_mod, Nat.mod_eq_of_lt hv]

theorem xorStage_xorStage : xorStage c (xorStage c v) = v := by
  simp only [xorStage, Nat.xor_assoc, Nat.xor_self, Nat.xor_zero]

end Units

end Sys2Proof.Machine
end

