-- ==== Sys2Proof/Tests/Slice0.lean ====
section
/-! SUPPORT. The model's own tests, and a witness for each statement with hypotheses. Expected results are rows of 95_test_vectors.md
(its section is named beside each test) or the rule's own corner cases. -/

namespace Sys2Proof.Machine

/-- A block with the shipped constants and these command words on its port. -/
def port (ws : List CmdWord) : State := { State.reset with pending := ws }

/-- The response a state delivers in one step, as a response word, when it delivers exactly one. -/
def oneResponse (s : State) : Option RspWord :=
  match step s with
  | .next t =>
    match t.answered with
    | [r] => some (printWord r)
    | _ => none
  | _ => none

/-- The response word one step answers to a command word. -/
def responseTo (w : CmdWord) : Option RspWord := oneResponse (port [w])

/-- The shipped constants are usable, so a test need only compute the response. -/
theorem responseTo_of {w : CmdWord} {v : RspWord} (h : printWord (respond base28 w) = v) : responseTo w = some v := by
  have hs : step (port [w]) = .next (afterAnswer (port [w]) [] (respond base28 w)) := by
    rw [step_eq_answer (rest := []) rfl]
    exact answer_of_ready ⟨base28_usable, rfl⟩
  rw [responseTo, oneResponse, hs]
  exact congrArg some h

/-! ## Well-formed commands (R79, R80) -/

theorem test_dec28_of_nine_characters_is_illegal : Instr.wellFormed (.dec28 9 0) = false := by decide
theorem test_dec28_of_eight_characters_is_legal : Instr.wellFormed (.dec28 8 0) = true := by decide
theorem test_decode_of_nine_characters_is_legal : Instr.wellFormed (.decode 9 0) = true := by decide

/-! ## Decoding: words put together field by field from the diagrams of R73, most significant field first -/

/-- Format M: zeros, `B`, zeros, `A`, zeros, `OP` = 0x0. -/
theorem test_decode_word_mul :
    decode (0#23 ++ 65521#17 ++ 0#20 ++ 12345678#28 ++ 0#4 ++ 0b0000#4 : BitVec 96) = .ok (.mul 12345678 65521) := by decide

/-- Format D: zeros, `N`, zeros, `W`, zeros, `OP` = 0x1. -/
theorem test_decode_word_rem :
    decode (0#11 ++ 268435456#29 ++ 0#3 ++ 17588159447055#45 ++ 0#4 ++ 0b0001#4 : BitVec 96) =
      .ok (.rem 17588159447055 268435456) := by decide

/-- Format W: zeros, `W`, zeros, `OP` = 0x2 or 0x3. -/
theorem test_decode_word_red28 :
    decode (0#43 ++ 13664877742662#45 ++ 0#4 ++ 0b0010#4 : BitVec 96) = .ok (.red28 13664877742662) := by decide
theorem test_decode_word_cvt :
    decode (0#43 ++ 2147483648#45 ++ 0#4 ++ 0b0011#4 : BitVec 96) = .ok (.cvt 2147483648) := by decide

/-- Format A: zeros, `A`, zeros, `OP` = 0x4 to 0xB. -/
theorem test_decode_word_mulc : decode (0#60 ++ 4097#28 ++ 0#4 ++ 0b0100#4 : BitVec 96) = .ok (.mulc 4097) := by decide
theorem test_decode_word_muli : decode (0#60 ++ 65521#28 ++ 0#4 ++ 0b0101#4 : BitVec 96) = .ok (.muli 65521) := by decide
theorem test_decode_word_ror : decode (0#60 ++ 127#28 ++ 0#4 ++ 0b0110#4 : BitVec 96) = .ok (.ror 127) := by decide
theorem test_decode_word_rol : decode (0#60 ++ 236978687#28 ++ 0#4 ++ 0b0111#4 : BitVec 96) = .ok (.rol 236978687) := by decide
theorem test_decode_word_xorm : decode (0#60 ++ 79301298#28 ++ 0#4 ++ 0b1000#4 : BitVec 96) = .ok (.xorm 79301298) := by decide
theorem test_decode_word_obf : decode (0#60 ++ 208557222#28 ++ 0#4 ++ 0b1001#4 : BitVec 96) = .ok (.obf 208557222) := by decide
theorem test_decode_word_deobf : decode (0#60 ++ 88470706#28 ++ 0#4 ++ 0b1010#4 : BitVec 96) = .ok (.deobf 88470706) := by decide
theorem test_decode_word_enc28 : decode (0#60 ++ 268435455#28 ++ 0#4 ++ 0b1011#4 : BitVec 96) = .ok (.enc28 268435455) := by decide

/-- Format S: zeros, `S` with its last character highest, `LEN`, `OP` = 0xC, 0xD or 0xF: the strings `PNPV8H` and `PNPV8HB`. -/
theorem test_decode_word_dec28 :
    decode (0#24 ++ 0x00#8 ++ 0x00#8 ++ 0x48#8 ++ 0x38#8 ++ 0x56#8 ++ 0x50#8 ++ 0x4E#8 ++ 0x50#8 ++ 6#4 ++ 0b1100#4 : BitVec 96) =
      .ok (.dec28 6 0x00004838_56504E50) := by decide
theorem test_decode_word_val28 :
    decode (0#24 ++ 0xFF#8 ++ 0x49#8 ++ 0x48#8 ++ 0x38#8 ++ 0x56#8 ++ 0x50#8 ++ 0x4E#8 ++ 0x50#8 ++ 6#4 ++ 0b1101#4 : BitVec 96) =
      .ok (.val28 6 0xFF494838_56504E50) := by decide
theorem test_decode_word_decode :
    decode (0#24 ++ 0x00#8 ++ 0x42#8 ++ 0x48#8 ++ 0x38#8 ++ 0x56#8 ++ 0x50#8 ++ 0x4E#8 ++ 0x50#8 ++ 7#4 ++ 0b1111#4 : BitVec 96) =
      .ok (.decode 7 0x00424838_56504E50) := by decide

/-- Format X: zeros, `X`, zeros, `OP` = 0xE. -/
theorem test_decode_word_encode :
    decode (0#56 ++ 0x80000000#32 ++ 0#4 ++ 0b1110#4 : BitVec 96) = .ok (.encode (-2147483648)) := by decide

/-- The malformed words of section 2.7. -/
def malformedWords : List CmdWord :=
  [0x00000000_00000010_0000010B, 0x00000000_00000000_0000016B, 0x80000000_00000000_0000010B, 0x000002FF_F1000000_00000100,
   0x000000FF_F1000010_00000100, 0x000000FF_F1800000_00000100, 0x00000000_07200000_00006401, 0x00200000_07000000_00006401,
   0x00200000_00000000_00006401] ++
  [0x00000000_00200000_00000002, 0x00000000_00000000_00000013, 0x00000000_00000100_0000010E, 0x00000100_00483856_504E506C,
   0x00000100_00000000_0000009C, 0x00000100_00483856_504E506D, 0x01000000_00483856_504E506F, 0x00000100_00493856_504E506F,
   0xFFFFFFFF_FFFFFFFF_FFFFFFFF]

theorem test_malformed_words_are_rejected :
    malformedWords.all (fun w => decide (decode w = .error (.mustBeZero (opcodeOf w)))) = true := by decide
theorem test_malformed_words_answer_invalid_argument :
    malformedWords.map responseTo = List.replicate 18 (some 1) := by decide

theorem test_table_word_with_operand_bits_left_out : decodeTableWord 8 0x13C = some (.dec28 3 0) := by decide
theorem test_table_word_runs_as_the_first_instruction :
    oneResponse (State.reset.withFetchWord 96 0x00000000_00000000_0000010E) = some 0x48385650_4E500000 := by decide

/-! ## Results (sections 2.1 to 2.6) -/

theorem test_mul_greatest_operands : responseTo 0x000001FF_FF00000F_FFFFFF00 = some 0x1FFFEFFE_00010000 := responseTo_of (by decide)
theorem test_mul_by_the_coprime : responseTo 0x000000FF_F1000000_BC614E00 = some 0x00BC5644_4C6E0000 := responseTo_of (by decide)
theorem test_rem_greatest_operands : responseTo 0x001FFFFF_FF1FFFFF_FFFFFF01 = some 0x00000000_FFFF0000 := responseTo_of (by decide)
theorem test_rem_by_zero : responseTo 0x00000000_00000000_00006401 = some 1 := responseTo_of (by decide)
theorem test_red28_of_the_modulus : responseTo 0x00000000_00000010_00000002 = some 0 := responseTo_of (by decide)
theorem test_red28_greatest_operand : responseTo 0x00000000_001FFFFF_FFFFFF02 = some 0x00000FFF_FFFF0000 := responseTo_of (by decide)
theorem test_cvt_greatest_native : responseTo 0x00000000_0000007F_FFFFFF03 = some 0x00007FFF_FFFF0000 := responseTo_of (by decide)
theorem test_cvt_first_above : responseTo 0x00000000_00000080_00000003 = some 1 := responseTo_of (by decide)
theorem test_mulc_wraps : responseTo 0x00000000_00000000_00100104 = some 0x00000000_0FF10000 := responseTo_of (by decide)
theorem test_mulc_greatest_operand : responseTo 0x00000000_0000000F_FFFFFF04 = some 0x00000FFF_000F0000 := responseTo_of (by decide)
theorem test_muli_of_one : responseTo 0x00000000_00000000_00000105 = some 0x00000DF0_11110000 := responseTo_of (by decide)
theorem test_muli_greatest_operand : responseTo 0x00000000_0000000F_FFFFFF05 = some 0x0000020F_EEEF0000 := responseTo_of (by decide)
theorem test_ror_low_bits_reappear_at_the_top : responseTo 0x00000000_00000000_00007F06 = some 0x00000FE0_00000000 := responseTo_of (by decide)
theorem test_ror_bit_seven_to_bit_zero : responseTo 0x00000000_00000000_00008006 = some 0x00000000_00010000 := responseTo_of (by decide)
theorem test_rol_top_bit : responseTo 0x00000000_00000008_00000007 = some 0x00000000_00400000 := responseTo_of (by decide)
theorem test_rol_top_bits_reappear_at_the_bottom : responseTo 0x00000000_0000000F_FFFF8007 = some 0x00000FFF_C07F0000 := responseTo_of (by decide)
theorem test_xorm_of_the_mask : responseTo 0x00000000_00000004_BA0AB208 = some 0 := responseTo_of (by decide)
theorem test_xorm_of_all_ones : responseTo 0x00000000_0000000F_FFFFFF08 = some 0x00000B45_F54D0000 := responseTo_of (by decide)
theorem test_obf_of_one : responseTo 0x00000000_00000000_00000109 = some 0x00000A9A_0B4D0000 := responseTo_of (by decide)
theorem test_obf_of_zero : responseTo 0x00000000_00000000_00000009 = some 0x000004BA_0AB20000 := responseTo_of (by decide)
theorem test_deobf_of_zero : responseTo 0x00000000_00000000_0000000A = some 0x00000BF6_60750000 := responseTo_of (by decide)
theorem test_deobf_undoes_obf : responseTo 0x00000000_00000005_45F4B20A = some 0x00000FFF_FFFF0000 := responseTo_of (by decide)
theorem test_enc28_of_one : responseTo 0x00000000_00000000_0000010B = some 0x43424242_42420000 := responseTo_of (by decide)
theorem test_enc28_greatest_operand : responseTo 0x00000000_0000000F_FFFFFF0B = some 0x56474D32_57560000 := responseTo_of (by decide)
theorem test_dec28_greatest_value : responseTo 0x00000039_39393939_3939398C = some 0x0057F6C0_FFFF0000 := responseTo_of (by decide)
theorem test_dec28_nul_is_no_symbol : responseTo 0x00000000_00000000_0000432C = some 2 := responseTo_of (by decide)
theorem test_val28_ignores_case_and_later_bytes : responseTo 0x000000FF_49683876_506E506D = some 4 := responseTo_of (by decide)
theorem test_val28_never_fails : responseTo 0x00000042_42483856_504E509D = some 0 := responseTo_of (by decide)
theorem test_encode_greatest_identifier : responseTo 0x00000000_0000000F_FFFFFF0E = some 0x444D4838_46480000 := responseTo_of (by decide)
theorem test_encode_of_a_negative_number : responseTo 0x00000000_000000FF_FFFFFF0E = some 1 := responseTo_of (by decide)
theorem test_decode_last_accepted_value : responseTo 0x00000000_0056474D_3257566F = some 0x00000619_8E7A0000 := responseTo_of (by decide)
theorem test_decode_first_rejected_value : responseTo 0x00000000_0057474D_3257566F = some 2 := responseTo_of (by decide)

/-! ## The assembler notation (R81, R82; section 3, P1 and P2) -/

theorem test_assemble_numbers :
    assembleLine [] "MUL 268435455, 0xFFF1  ; the product".toList = some (.mul 268435455 65521) := by decide
theorem test_assemble_copies_a_result :
    assembleLine [.ok false 17588159447055] "RED28 %1".toList = some (.red28 17588159447055) := by decide
theorem test_assemble_an_alias_with_a_string :
    assembleLine [] ("validateBase28 ".toList ++ [quote] ++ "PNPV8H".toList ++ [quote]) = some (.val28 6 0x4838_56504E50) := by
  decide
theorem test_assemble_copies_no_error_result : assembleLine [.error .invalidArgument] "RED28 %1".toList = none := by decide
theorem test_assemble_operand_too_wide : assembleLine [] "ENC28 268435456".toList = none := by decide
theorem test_response_text : responseText .decode (.ok false 1) = "-> OK 1" := by decide

/-! ## Witnesses: one a statement with hypotheses, named after it, with a value for each clause -/

theorem ready_port (w : CmdWord) (rest : List CmdWord) : Ready (port (w :: rest)) w rest := ⟨base28_usable, rfl⟩

/-- What a meaning answers on a test state, from the response alone. -/
theorem exec_port {i : Instr} {r : Response} (w : CmdWord) (rest : List CmdWord) (h : commandResponse base28 i = r) :
    exec i (port (w :: rest)) = .next (afterAnswer (port (w :: rest)) rest r) := by
  rw [exec_of_ready (ready_port w rest)]
  exact congrArg (fun r => Host.Outcome.next (afterAnswer (port (w :: rest)) rest r)) h

/-- The hypotheses of `MalformedIsInvalidArgument` at a word. -/
abbrev MalformedAt (op : BitVec 4) (mask w : CmdWord) : Prop :=
  Ready (port [w]) w [] ∧ w.extractLsb 3 0 = op ∧ w &&& mask ≠ op.setWidth 96

theorem malformedAt {op : BitVec 4} {mask w : CmdWord} (h : w.extractLsb 3 0 = op ∧ w &&& mask ≠ op.setWidth 96) :
    MalformedAt op mask w := ⟨ready_port w [], h⟩

/-- The masks of R78 by opcode. -/
def opcodeRows : List (BitVec 4 × CmdWord) :=
  [(0x0, 0xFFFFFE00_00FFFFF0_000000FF), (0x1, 0xFFE00000_00E00000_000000FF), (0x2, 0xFFFFFFFF_FFE00000_000000FF), (0x3, 0xFFFFFFFF_FFE00000_000000FF)] ++
  [(0x4, 0xFFFFFFFF_FFFFFFF0_000000FF), (0x5, 0xFFFFFFFF_FFFFFFF0_000000FF), (0x6, 0xFFFFFFFF_FFFFFFF0_000000FF), (0x7, 0xFFFFFFFF_FFFFFFF0_000000FF)] ++
  [(0x8, 0xFFFFFFFF_FFFFFFF0_000000FF), (0x9, 0xFFFFFFFF_FFFFFFF0_000000FF), (0xA, 0xFFFFFFFF_FFFFFFF0_000000FF), (0xB, 0xFFFFFFFF_FFFFFFF0_000000FF)] ++
  [(0xC, 0xFFFFFF00_00000000_0000000F), (0xD, 0xFFFFFF00_00000000_0000000F), (0xE, 0xFFFFFFFF_FFFFFF00_000000FF), (0xF, 0xFFFFFF00_00000000_0000000F)]

/-- For each opcode a word that is a command, and one with every must-be-zero bit set. -/
theorem witness_DecodeFollowsTheOpcodeMap :
    opcodeRows.all (fun row =>
      let good : CmdWord := row.1.setWidth 96
      let bad : CmdWord := row.1.setWidth 96 ||| 0xFFFFFFFF_FFFFFFFF_FFFFFFF0
      decide (good.extractLsb 3 0 = row.1 ∧ good &&& row.2 = row.1.setWidth 96 ∧
        bad.extractLsb 3 0 = row.1 ∧ bad &&& row.2 ≠ row.1.setWidth 96)) = true := by decide

theorem witness_EncodeInvertsDecode : decode 0x000001FF_FF00000F_FFFFFF00 = .ok (.mul 268435455 131071) := by decide

theorem witness_IllegalCommandAnswersInvalidArgument :
    Ready (port [0x9C, 0]) 0x9C [0] ∧ Instr.wellFormed (.dec28 9 0) = false ∧ Instr.wellFormed (.dec28 15 0) = false ∧
    Instr.wellFormed (.dec28 8 0) = true := ⟨ready_port _ _, by decide⟩

theorem witness_StepRunsTheDecodedCommand :
    ((port [0x109]).pending = [0x109] ∧ decode 0x109 = .ok (.obf 1)) ∧
    (Ready (port [0x16B]) 0x16B [] ∧ decode 0x16B = .error (.mustBeZero .enc28)) ∧ State.reset.pending = [] :=
  ⟨by decide, ⟨ready_port _ _, by decide⟩, rfl⟩

theorem witness_ExecDeliversTheCommandResponse : Ready (port [0x109, 0x6401]) 0x109 [0x6401] := ready_port _ _

theorem witness_ExecFrame :
    exec (.cvt 2147483648) (port [0x80_00000003, 0]) =
      .next { rom := base28, pending := [0], answered := [.error .invalidArgument] } := exec_port _ _ (by decide)

/-- Every command is answered somewhere. -/
theorem witness_ExecFrame_each (i : Instr) : ∃ t, exec i (port [encode i]) = .next t := ⟨_, exec_of_ready (ready_port _ _) i⟩

theorem witness_StepAnswersTheOldestCommand :
    step State.reset = .next State.reset ∧
    step (port [0x80_00000003, 0]) = .next { rom := base28, pending := [0], answered := [.error .invalidArgument] } :=
  ⟨rfl, exec_port (i := .cvt 2147483648) _ _ (by decide)⟩

theorem witness_UsableBlockNeverStops : (port [0x16B, 0x109]).rom.Usable := base28_usable

theorem witness_RunAnswersCommandsInOrder :
    (port [0x109, 0x16B, 0]).rom.Usable ∧ (port [0x109, 0x16B, 0]).pending = [0x109, 0x16B] ++ [0] := ⟨base28_usable, rfl⟩

theorem witness_ResponseDependsOnWordAndConstantsOnly :
    step (port [0x104, 0]) = .next { rom := base28, pending := [0], answered := [.ok false 65521] } ∧
    step { port [0x104] with answered := [.error .malformedInput] } =
      .next { rom := base28, pending := [], answered := [.error .malformedInput, .ok false 65521] } :=
  ⟨exec_port (i := .mulc 1) _ _ (by decide),
   exec_of_ready (w := 0x104) (rest := []) (s := { port [0x104] with answered := [.error .malformedInput] })
     ⟨base28_usable, rfl⟩ (.mulc 1)⟩

theorem witness_PresentedWordGetsOneResponse : State.reset.rom.Usable ∧ Quiet State.reset := ⟨base28_usable, rfl, rfl⟩

theorem witness_ReceiveTakesEachResponseOnce :
    State.reset.answered = [] ∧
    { State.reset with answered := [.ok true 0, .error .malformedInput] }.answered = .ok true 0 :: [.error .malformedInput] :=
  ⟨rfl, rfl⟩

theorem witness_HostResetOnlyWhenQuiet :
    Quiet State.reset ∧ ¬ Quiet (port [0]) ∧ ¬ Quiet { State.reset with answered := [.ok true 0] } := by decide

/-- A constant set whose inverse is that of no coprime, and one whose alphabet repeats a symbol. -/
theorem witness_IllFormedConstantsAreRefused :
    ({ port [0x16B] with rom := { base28 with inverse := 3 } }.pending = [0x16B] ∧ ¬ { base28 with inverse := 3 }.WellFormed) ∧
    ¬ { base28 with alphabet := List.replicate 28 0x42 }.WellFormed :=
  ⟨⟨rfl, by rintro ⟨-, -, -, -, -, -, h, -⟩; revert h; decide⟩, by rintro ⟨-, -, -, -, -, -, -, h, -⟩; revert h; decide⟩

theorem witness_ConstantsAreObservable : Ready (port [8]) 8 [] := ready_port _ _

theorem witness_StepKeepsTheInvariant :
    RunInv { port [0x104] with answered := [.ok true 0] } ∧
    step { port [0x104] with answered := [.ok true 0] } =
      .next { rom := base28, pending := [], answered := [.ok true 0, .ok false 65521] } :=
  ⟨⟨base28_usable, by simp [WellShaped]⟩,
   exec_of_ready (w := 0x104) (rest := []) (s := { port [0x104] with answered := [.ok true 0] }) ⟨base28_usable, rfl⟩ (.mulc 1)⟩

/-! ### Exact arithmetic -/

theorem witness_MulAnswersTheExactProduct :
    Ready (port [0xFF_F1000000_00000100]) 0xFF_F1000000_00000100 [] ∧ MalformedAt 0x0 0xFFFFFE00_00FFFFF0_000000FF
      0x000002FF_F1000000_00000100 := ⟨ready_port _ _, malformedAt (by decide)⟩

theorem witness_RemAnswersTheRemainder :
    Ready (port [0x7000000_00006401]) 0x7000000_00006401 [] ∧ (0 : BitVec 29) = 0 ∧ (1 : BitVec 29) ≠ 0 ∧
    (536870911 : BitVec 29) ≠ 0 ∧ MalformedAt 0x1 0xFFE00000_00E00000_000000FF
      0x00000000_07200000_00006401 := ⟨ready_port _ _, by decide, by decide, by decide, malformedAt (by decide)⟩

theorem witness_Red28AnswersTheLow28Bits :
    Ready (port [0x10_00000002]) 0x10_00000002 [] ∧ MalformedAt 0x2 0xFFFFFFFF_FFE00000_000000FF
      0x00000000_00200000_00000002 := ⟨ready_port _ _, malformedAt (by decide)⟩

theorem witness_CvtConvertsOrFails :
    Ready (port [0x80_00000003]) 0x80_00000003 [] ∧ (2147483647 : BitVec 45).toNat ≤ 2 ^ 31 - 1 ∧
    ¬ (2147483648 : BitVec 45).toNat ≤ 2 ^ 31 - 1 ∧ MalformedAt 0x3 0xFFFFFFFF_FFE00000_000000FF
      0x00000000_00000000_00000013 := ⟨ready_port _ _, by decide, by decide, malformedAt (by decide)⟩

theorem witness_ResultsStayWithinTheirWidths :
    commandResponse base28 (.mul 268435455 131071) = .ok false 35184103522305 ∧
    commandResponse base28 (.rem 536870910 536870911) = .ok false 536870910 ∧
    commandResponse base28 (.cvt 2147483647) = .ok false 2147483647 ∧
    commandResponse base28 (.dec28 8 0x39393939_39393939) = .ok false 377801998335 ∧
    commandResponse base28 (.red28 268435455) = .ok false 268435455 ∧
    commandResponse base28 (.mulc 268435455) = .ok false 268369935 ∧
    commandResponse base28 (.muli 268435455) = .ok false 34598639 ∧
    commandResponse base28 (.ror 268435455) = .ok false 268435455 ∧
    commandResponse base28 (.rol 268435455) = .ok false 268435455 ∧
    commandResponse base28 (.xorm 268435455) = .ok false 189134157 ∧
    commandResponse base28 (.obf 268435455) = .ok false 88470706 ∧
    commandResponse base28 (.deobf 88470706) = .ok false 268435455 ∧
    commandResponse base28 (.enc28 1) = .ok false 0x4342_42424242 ∧
    commandResponse base28 (.encode 1) = .ok false 0x4838_56504E50 ∧
    commandResponse base28 (.decode 6 0x4838_56504E50) = .ok false 1 ∧
    commandResponse base28 (.val28 5 0x38_56504E50) = .ok false 0 := by decide

/-! ### Obfuscation permutation -/

theorem witness_MulcMultipliesByTheCoprime :
    Ready (port [0x104]) 0x104 [] ∧ MalformedAt 0x4 0xFFFFFFFF_FFFFFFF0_000000FF
      0x00000000_00000010_00000104 := ⟨ready_port _ _, malformedAt (by decide)⟩

theorem witness_Red28AndMulcAsOtherCommands : Ready (port [0x104]) 0x104 [] := ready_port _ _

theorem witness_MuliMultipliesByTheInverse :
    Ready (port [0x105]) 0x105 [] ∧ MalformedAt 0x5 0xFFFFFFFF_FFFFFFF0_000000FF
      0x00000000_00000010_00000105 := ⟨ready_port _ _, malformedAt (by decide)⟩

theorem witness_RorRotatesRight :
    Ready (port [0x106]) 0x106 [] ∧ MalformedAt 0x6 0xFFFFFFFF_FFFFFFF0_000000FF
      0x00000000_00000010_00000106 := ⟨ready_port _ _, malformedAt (by decide)⟩

theorem witness_RolRotatesLeft :
    Ready (port [0x107]) 0x107 [] ∧ MalformedAt 0x7 0xFFFFFFFF_FFFFFFF0_000000FF
      0x00000000_00000010_00000107 := ⟨ready_port _ _, malformedAt (by decide)⟩

theorem witness_XormMasksEveryBit :
    Ready (port [0x108]) 0x108 [] ∧ MalformedAt 0x8 0xFFFFFFFF_FFFFFFF0_000000FF
      0x00000000_00000010_00000108 := ⟨ready_port _ _, malformedAt (by decide)⟩

theorem witness_ObfComposesTheForwardSteps :
    Ready (port [0x109]) 0x109 [] ∧ MalformedAt 0x9 0xFFFFFFFF_FFFFFFF0_000000FF
      0x00000000_00000010_00000109 := ⟨ready_port _ _, malformedAt (by decide)⟩

theorem witness_DeobfComposesTheInverseSteps :
    Ready (port [0x10A]) 0x10A [] ∧ MalformedAt 0xA 0xFFFFFFFF_FFFFFFF0_000000FF
      0x00000000_00000010_0000010A := ⟨ready_port _ _, malformedAt (by decide)⟩

theorem witness_PermutationIsABijection : base28.Usable ∧ { base28 with rot := 0, xorMask := 0 }.Usable ∧
    commandResponse base28 (.obf 5) = commandResponse base28 (.obf 5) := by
  refine ⟨base28_usable, ?_, rfl⟩
  decide

theorem witness_InverseEngineFromTwoMultiplierPasses :
    commandResponse base28 (.mul 65521 4369) = .ok false 286261249 ∧
    commandResponse base28 (.mul 65521 1784) = .ok false 116889464 ∧
    commandResponse base28 (.rem 116889464 2048) = .ok false 1912 ∧
    commandResponse base28 (.red28 536870913) = commandResponse base28 (.muli 65521) := by decide

/-! ### Base-28 text codec -/

theorem witness_UpperFoldsLowerCaseOnly :
    (0x61 ≤ (0x61 : Byte).toNat ∧ (0x61 : Byte).toNat ≤ 0x7A) ∧ (0x61 ≤ (0x7A : Byte).toNat ∧ (0x7A : Byte).toNat ≤ 0x7A) ∧
    (0x60 : Byte).toNat < 0x61 ∧ 0x7A < (0x7B : Byte).toNat ∧ 0x7A < (0xFF : Byte).toNat := by decide

theorem witness_IndexFindsTheUniqueSymbol :
    index base28 0x42 = some 0 ∧ index base28 0x62 = some 0 ∧ index base28 0x39 = some 27 ∧ index base28 0x41 = none ∧
    (0x1F : Byte).toNat < 0x20 ∧ 0x7F ≤ (0x7F : Byte).toNat := by decide

theorem witness_Enc28WritesTheDigits :
    Ready (port [0x10B]) 0x10B [] ∧ (5 : Nat) < 6 ∧ MalformedAt 0xB 0xFFFFFFFF_FFFFFFF0_000000FF 0x16B :=
  ⟨ready_port _ _, by decide, malformedAt (by decide)⟩

/-- The clauses at lengths 9, 0, 1 and 8, and at a character that is no symbol, first and last. -/
theorem witness_Dec28ReadsTheDigits :
    Ready (port [0xC]) 0xC [] ∧ 8 < (9 : BitVec 4).toNat ∧ (0 : BitVec 4) = 0 ∧
    ((2 : BitVec 4).toNat ≤ 8 ∧ ∃ k, k < (2 : BitVec 4).toNat ∧ index base28 (BitVec.extractLsb' (8 * k) 8 (0x0043 : BitVec 64)) = none) ∧
    ((2 : BitVec 4).toNat ≤ 8 ∧ ∃ k, k < (2 : BitVec 4).toNat ∧ index base28 (BitVec.extractLsb' (8 * k) 8 (0x4300 : BitVec 64)) = none) ∧
    (0 < (1 : BitVec 4).toNat ∧ (1 : BitVec 4).toNat ≤ 8 ∧
      ∀ k, k < (1 : BitVec 4).toNat → index base28 (BitVec.extractLsb' (8 * k) 8 (0xFF39 : BitVec 64)) = some 27) ∧
    (0 < (8 : BitVec 4).toNat ∧ (8 : BitVec 4).toNat ≤ 8 ∧
      ∀ k, k < (8 : BitVec 4).toNat → index base28 (BitVec.extractLsb' (8 * k) 8 (0x39393939_39393939 : BitVec 64)) = some 27) ∧
    MalformedAt 0xC 0xFFFFFF00_00000000_0000000F 0x00000100_00000000_0000009C :=
  ⟨ready_port _ _, by decide, rfl, ⟨by decide, 1, by decide⟩, ⟨by decide, 0, by decide⟩, by decide, by decide,
   malformedAt (by decide)⟩

/-- Both answers: six symbols; five symbols; six characters of which one is no symbol. -/
theorem witness_Val28ValidatesSixSymbols :
    Ready (port [0xD]) 0xD [] ∧
    ((6 : BitVec 4) = 6 ∧ ∀ k, k < 6 → index base28 (BitVec.extractLsb' (8 * k) 8 (0x4838_56504E50 : BitVec 64)) ≠ none) ∧
    (5 : BitVec 4) ≠ 6 ∧ ¬ (∀ k, k < 6 → index base28 (BitVec.extractLsb' (8 * k) 8 (0x4938_56504E50 : BitVec 64)) ≠ none) ∧
    MalformedAt 0xD 0xFFFFFF00_00000000_0000000F 0x00000100_00483856_504E506D :=
  ⟨ready_port _ _, by decide, by decide, by decide, malformedAt (by decide)⟩

/-- Strings that differ from byte `LEN` on, with `LEN` 6 and 0, and strings equal in all eight bytes, with `LEN` 15. -/
theorem witness_BytesBeyondTheLengthAreIgnored :
    base28.Usable ∧ (7 : Nat) < 8 ∧
    (∀ k, k < (6 : BitVec 4).toNat → k < 8 → charAt 0x00004838_56504E50 k = charAt 0xFF494838_56504E50 k) ∧
    (∀ k, k < (0 : BitVec 4).toNat → k < 8 → charAt 0 k = charAt 0x42 k) ∧
    (∀ k, k < (15 : BitVec 4).toNat → k < 8 → charAt 5 k = charAt 5 k) := ⟨base28_usable, by decide⟩

theorem witness_Dec28IsLenientVal28IsStrict :
    base28.Usable ∧
    (0 < (1 : BitVec 4).toNat ∧ (1 : BitVec 4).toNat ≤ 8 ∧ ∀ k, k < (1 : BitVec 4).toNat → index base28 (charAt 0x43 k) ≠ none) ∧
    (1 : BitVec 4) ≠ 6 ∧
    (∀ k, k < (6 : BitVec 4).toNat → index base28 (charAt 0x4838_56504E50 k) ≠ none) ∧
    ((8 : BitVec 4).toNat ≤ 8 ∧ 7 < (8 : BitVec 4).toNat ∧ index base28 (charAt 0x49424242_42424242 7) = none) :=
  ⟨base28_usable, by decide⟩

theorem witness_TokenCopiesIntoAString :
    (5 : Nat) < 6 ∧ base28.Usable ∧ commandResponse base28 (.enc28 1) = .ok false 0x4342_42424242 ∧
    commandResponse base28 (.encode 1) = .ok false 0x4838_56504E50 := ⟨by decide, base28_usable, by decide⟩

/-- The least and the greatest such length, and the greatest presentable one. -/
theorem witness_UnpresentableStringsAnswerByLength :
    Ready (port [0x9D]) 0x9D [] ∧ 8 < (9 : BitVec 4).toNat ∧ 8 < (15 : BitVec 4).toNat ∧ (8 : BitVec 4).toNat ≤ 8 :=
  ⟨ready_port _ _, by decide⟩

/-- The value 2^28 - 1 of `vw2mgv`, and two spellings of `VW2MGW`, whose value 2^28 cannot be presented to `ENC28`. -/
theorem witness_TextCodecRoundTrips :
    base28.Usable ∧ commandResponse base28 (.enc28 5) = commandResponse base28 (.enc28 5) ∧
    commandResponse base28 (.dec28 6 0x7667_6D327776) = .ok false ((268435455 : BitVec 28).setWidth 48) ∧
    commandResponse base28 (.dec28 6 0x7767_6D327776) = .ok false 268435456 ∧
    commandResponse base28 (.dec28 6 0x5747_4D325756) = .ok false 268435456 := ⟨base28_usable, rfl, by decide⟩

/-! ### Full identifier codec -/

/-- The identifiers -1, 0, 268435455 and 268435456. -/
theorem witness_EncodeChecksThenComposes :
    Ready (port [0xE]) 0xE [] ∧
    (-1 : BitVec 32).toInt < 0 ∧ ¬ ((0 : BitVec 32).toInt < 0 ∨ (base28.maxval : Int) < (0 : BitVec 32).toInt) ∧
    ¬ ((268435455 : BitVec 32).toInt < 0 ∨ (base28.maxval : Int) < (268435455 : BitVec 32).toInt) ∧
    (base28.maxval : Int) < (268435456 : BitVec 32).toInt ∧
    MalformedAt 0xE 0xFFFFFFFF_FFFFFF00_000000FF 0x00000000_00000100_0000010E :=
  ⟨ready_port _ _, by decide, by decide, by decide, by decide, malformedAt (by decide)⟩

/-- A string that is no token, the last accepted token by value and the first rejected one. -/
theorem witness_DecodeChecksThenComposes :
    Ready (port [0xF]) 0xF [] ∧
    commandResponse base28 (.val28 5 0x38_56504E50) = .ok false 0 ∧
    (commandResponse base28 (.val28 6 0x5647_4D325756) = .ok true 0 ∧
      commandResponse base28 (.dec28 6 0x5647_4D325756) = .ok false 268435455) ∧
    (commandResponse base28 (.val28 6 0x5747_4D325756) = .ok true 0 ∧
      commandResponse base28 (.dec28 6 0x5747_4D325756) = .ok false 268435456) ∧
    MalformedAt 0xF 0xFFFFFF00_00000000_0000000F 0x00000100_00493856_504E506F :=
  ⟨ready_port _ _, by decide, by decide, by decide, malformedAt (by decide)⟩

theorem witness_IdentifierCodecRoundTrips :
    base28.Usable ∧ (0 ≤ (0 : BitVec 32).toInt ∧ (0 : BitVec 32).toInt ≤ base28.maxval) ∧
    (0 ≤ (268435455 : BitVec 32).toInt ∧ (268435455 : BitVec 32).toInt ≤ base28.maxval) ∧
    commandResponse base28 (.decode 6 0x6838_76706E70) = .ok false 1 := ⟨base28_usable, by decide⟩

theorem witness_EncodeAnswersEachTokenOnce :
    base28.Usable ∧ (0 ≤ (268435455 : BitVec 32).toInt ∧ (268435455 : BitVec 32).toInt ≤ base28.maxval) ∧
    commandResponse base28 (.encode 1) = .ok false 0x4838_56504E50 ∧
    (∀ k, k < 6 → resultChar 0x4838_56504E50 k ∈ base28.alphabet) ∧
    commandResponse base28 (.dec28 6 0x4838_56504E50) = .ok false 177867597 := ⟨base28_usable, by decide⟩

/-! ### Errors and the response word -/

/-- One word for each cause. -/
theorem witness_InvalidArgumentCauses :
    base28.Usable ∧ decode 0x16B = .error (.mustBeZero .enc28) ∧ decode 0x6401 = .ok (.rem 100 0) ∧
    decode 0xFF_FFFFFF0E = .ok (.encode (-1)) ∧ decode 0x10_0000000E = .ok (.encode 268435456) ∧
    decode 0x80_00000003 = .ok (.cvt 2147483648) ∧ decode 0x9C = .ok (.dec28 9 0) := ⟨base28_usable, by decide⟩

/-- One word for each cause. -/
theorem witness_MalformedInputCauses :
    base28.Usable ∧ decode 0xC = .ok (.dec28 0 0) ∧ (decode 0x491C = .ok (.dec28 1 0x49) ∧ index base28 (charAt 0x49 0) = none) ∧
    decode 0x431F = .ok (.decode 1 0x43) ∧
    (decode 0x493856_504E506F = .ok (.decode 6 0x4938_56504E50) ∧ index base28 (charAt 0x4938_56504E50 5) = none) ∧
    (decode 0x57474D_3257566F = .ok (.decode 6 0x5747_4D325756) ∧
      commandResponse base28 (.dec28 6 0x5747_4D325756) = .ok false 268435456) := ⟨base28_usable, by decide⟩

theorem witness_StatusTable : base28.Usable := base28_usable

theorem witness_OnlyVal28SetsTheFlag :
    exec (.val28 6 0x4838_56504E50) (port [0x483856_504E506D]) = .next { rom := base28, pending := [], answered := [.ok true 0] } ∧
    ({ rom := base28, pending := [], answered := [.ok true 0] } : State).answered =
      (port [0x483856_504E506D]).answered ++ [.ok true 0] := ⟨exec_port _ _ (by decide), rfl⟩

/-- Two words of the same status that differ in the bits of `FLAG` and `R`. -/
theorem witness_ResponseWordReadsBack :
    (1 : RspWord).extractLsb 1 0 = (0x10005 : RspWord).extractLsb 1 0 ∧
    (1 : RspWord).extractLsb 15 3 = (0x10005 : RspWord).extractLsb 15 3 ∧ (1 : RspWord).extractLsb 1 0 ≠ 0 ∧
    (3 : RspWord).extractLsb 1 0 = 3 ∧ (8 : RspWord).extractLsb 15 3 ≠ 0 := by decide

end Sys2Proof.Machine
end

section
/-! The scope family (00_scope.md): what a step does and what it leaves unchanged, from the laws of `answer`, and the shipped
constants. -/

namespace Sys2Proof.Machine

variable {s t : State} {w : CmdWord} {rest : List CmdWord}

/-! ## The response to a word, by what the word decodes to -/

theorem respond_of_decode_ok {i : Instr} (c : Cfg) (h : decode w = .ok i) : respond c w = commandResponse c i := by
  simp only [respond, h]

theorem respond_of_decode_error {e : DecodeError} (c : Cfg) (h : decode w = .error e) :
    respond c w = .error .invalidArgument := by
  simp only [respond, h, raise]

/-! ## A step, under a usable constant set and in general -/

theorem step_of_ready (h : Ready s w rest) : step s = .next (afterAnswer s rest (respond s.rom w)) := by
  rw [step_eq_answer h.2, answer_of_ready h]

theorem step_of_decode_ok {i : Instr} (hp : s.pending = w :: rest) (hd : decode w = .ok i) : step s = exec i s := by
  rw [step_eq_answer hp, respond_of_decode_ok s.rom hd, exec_eq_answer]

/-- All a step that answers can do: idle, or answer the oldest word under a usable constant set (R13, R57). -/
theorem step_next (h : step s = .next t) :
    (s.pending = [] ∧ t = s) ∨ ∃ w rest, Ready s w rest ∧ t = afterAnswer s rest (respond s.rom w) := by
  cases hp : s.pending with
  | nil =>
    rw [step_of_empty hp] at h
    cases h
    exact .inl ⟨rfl, rfl⟩
  | cons w rest =>
    rw [step_eq_answer hp] at h
    obtain ⟨w', rest', hready, rfl⟩ := answer_next h
    cases hp.symm.trans hready.2
    exact .inr ⟨w, rest, hready, rfl⟩

/-! ## The obligations -/

/-- Settles O8, by the inversion of `exec`: every meaning that answers does so by `answer`. -/
theorem execFrame : Obligations.ExecFrame := by
  intro i s t h
  obtain ⟨w, rest, ⟨-, hp⟩, rfl⟩ := exec_next h
  exact ⟨rfl, ⟨w, hp⟩, ⟨commandResponse s.rom i, rfl⟩⟩

/-- Settles O9, by the inversion of `step`. -/
theorem stepAnswersTheOldestCommand : Obligations.StepAnswersTheOldestCommand := by
  intro s t h
  obtain hidle | ⟨w, rest, ⟨-, hp⟩, ht⟩ := step_next h
  · exact .inl hidle
  · exact .inr ⟨w, rest, hp, ht⟩

/-- Settles O6, one law of `step` per clause. -/
theorem stepRunsTheDecodedCommand : Obligations.StepRunsTheDecodedCommand := by
  refine ⟨fun s w rest i hp hd => step_of_decode_ok hp hd, fun s w rest e hready hd => ?_, fun s hp => step_of_empty hp⟩
  rw [step_of_ready hready, respond_of_decode_error s.rom hd]

/-- Settles O7: a meaning is `answer` of its command's response, and a ready block delivers it. -/
theorem execDeliversTheCommandResponse : Obligations.ExecDeliversTheCommandResponse :=
  fun _ _ _ i hready => exec_of_ready hready i

/-- Settles O18: the conditions of R6 are `base28_usable`, and its two products are computed. -/
theorem shippedConstantsAreUsable : Obligations.ShippedConstantsAreUsable :=
  ⟨base28_usable, by decide, by decide⟩

end Sys2Proof.Machine
end

section
/-! The state family (10_state.md): the forms a response can have and what a run keeps of them, the response word read back, and the
constants the host observes. -/

namespace Sys2Proof.Machine

variable {s t : State} {w : CmdWord} {rest : List CmdWord} {c : Cfg} {i : Instr}

/-! ## The forms of a response -/

/-- What a command `i` can answer: an error, a number of at most 45 bits, a token, or the verdict of a validation (R24, R26, R35). -/
inductive ResponseForm (c : Cfg) (i : Instr) : Response → Prop
  | ofError (kind : ErrorKind) : ResponseForm c i (raise kind)
  | ofNumber (v : Nat) (hv : v < 2 ^ 45) : ResponseForm c i (number v)
  | ofToken (n : Nat) : ResponseForm c i (token (encodeText c n))
  | ofVerdict (b : Bool) (hi : ∃ len str, i = .val28 len str) : ResponseForm c i (flagged b)

theorem ResponseForm.ofField {v : Nat} (hv : v < 2 ^ 28) : ResponseForm c i (number v) :=
  .ofNumber v (hv.trans (by norm_num))

/-- The value of at most eight digits is below 28^8, hence below 2^45 (R107, R146). -/
theorem horner_digits_lt (hc : c.Usable) {n : Nat} {str : BitVec 64} {ds : List Nat} (hn : n ≤ smax)
    (h : digits c (chars n str) = some ds) : horner c ds < 2 ^ 45 := by
  calc horner c ds < 28 ^ ds.length := horner_lt hc ds (digits_lt hc h)
    _ = 28 ^ n := by rw [(digits_chars_eq_some.mp h).1]
    _ ≤ 28 ^ 8 := Nat.pow_le_pow_right (by norm_num) hn
    _ < 2 ^ 45 := by norm_num

theorem remResponse_form (v : BitVec 45) (n : BitVec 29) : ResponseForm c i (remResponse v n) := by
  unfold remResponse
  split
  · exact .ofError _
  · exact .ofNumber _ ((Nat.mod_le _ _).trans_lt v.isLt)

theorem cvtResponse_form (v : BitVec 45) : ResponseForm c i (cvtResponse v) := by
  unfold cvtResponse
  split
  · exact .ofError _
  · exact .ofNumber _ v.isLt

theorem dec28Response_form (hc : c.Usable) (len : BitVec 4) (str : BitVec 64) :
    ResponseForm c i (dec28Response c len str) := by
  unfold dec28Response
  split
  · exact .ofError _
  · next hlen =>
    split
    · exact .ofError _
    · split
      · exact .ofError _
      · next hds => exact .ofNumber _ (horner_digits_lt hc (Nat.le_of_not_lt hlen) hds)

theorem encodeResponse_form (x : BitVec 32) : ResponseForm c i (encodeResponse c x) := by
  unfold encodeResponse
  split
  · exact .ofError _
  · exact .ofToken _

theorem decodeResponse_form (hc : c.Usable) (len : BitVec 4) (str : BitVec 64) :
    ResponseForm c i (decodeResponse c len str) := by
  unfold decodeResponse
  split
  · split
    · exact .ofError _
    · split
      · exact .ofError _
      · exact .ofField (deobfuscate_lt hc)
  · exact .ofError _

theorem commandResponse_form (hc : c.Usable) (i : Instr) : ResponseForm c i (commandResponse c i) := by
  cases i with
  | mul a b => exact .ofNumber _ ((Nat.mul_lt_mul'' a.isLt b.isLt).trans_eq (by norm_num))
  | rem v n => exact remResponse_form v n
  | red28 v => exact .ofNumber _ ((Nat.mod_le _ _).trans_lt v.isLt)
  | cvt v => exact cvtResponse_form v
  | mulc a => exact .ofField (mulForward_lt hc)
  | muli a => exact .ofField (mulInverse_lt hc)
  | ror a => exact .ofField (rotateRight_lt hc a.isLt)
  | rol a => exact .ofField (rotateLeft_lt hc a.isLt)
  | xorm a => exact .ofField (xorStage_lt hc a.isLt)
  | obf a => exact .ofField (obfuscate_lt hc)
  | deobf a => exact .ofField (deobfuscate_lt hc)
  | enc28 a => exact .ofToken _
  | dec28 len str => exact dec28Response_form hc len str
  | val28 len str => exact .ofVerdict _ ⟨len, str, rfl⟩
  | encode x => exact encodeResponse_form x
  | decode len str => exact decodeResponse_form hc len str

/-! ## The shape of a response -/

theorem wellShaped_number {v : Nat} (hv : v < 2 ^ 45) : WellShaped c (number v) := by
  left
  rwa [toNat_ofNat48 (hv.trans (by norm_num))]

theorem resultChar_encodeText (hc : c.Usable) (n : Nat) {k : Nat} (hk : k < 6) :
    resultChar (BitVec.ofNat 48 (packChars (encodeText c n))) k = symbol c (n / 28 ^ (5 - k) % 28) := by
  rw [resultChar_packChars (length_encodeText hc n), encodeText_eq hc]
  simp [hk]

theorem wellShaped_token (hc : c.Usable) (n : Nat) : WellShaped c (token (encodeText c n)) := by
  right
  intro k hk
  rw [resultChar_encodeText hc n hk]
  exact symbol_mem hc (Nat.mod_lt _ (by norm_num))

theorem wellShaped_flagged (b : Bool) : WellShaped c (flagged b) := by
  cases b with
  | false => exact wellShaped_number (v := 0) (by norm_num)
  | true => rfl

theorem ResponseForm.wellShaped (hc : c.Usable) {r : Response} (h : ResponseForm c i r) : WellShaped c r := by
  cases h with
  | ofError kind => trivial
  | ofNumber v hv => exact wellShaped_number hv
  | ofToken n => exact wellShaped_token hc n
  | ofVerdict b hi => exact wellShaped_flagged b

theorem respond_wellShaped (hc : c.Usable) (w : CmdWord) : WellShaped c (respond c w) := by
  cases hd : decode w with
  | ok i =>
    rw [respond_of_decode_ok c hd]
    exact (commandResponse_form hc i).wellShaped hc
  | error e =>
    rw [respond_of_decode_error c hd]
    trivial

/-- Only a validation sets `FLAG`, and it answers `R = 0` (R26, R150). -/
theorem ResponseForm.of_flag {r : Response} {v : ResultWord} (h : ResponseForm c i r) (hr : r = .ok true v) :
    v = 0 ∧ ∃ len str, i = .val28 len str := by
  cases h with
  | ofError kind => cases hr
  | ofNumber n hn => cases hr
  | ofToken n => cases hr
  | ofVerdict b hi =>
    cases hr
    exact ⟨rfl, hi⟩

/-! ## A step and what it appends -/

theorem RunInv_afterAnswer {r : Response} (hs : RunInv s) (hr : WellShaped s.rom r) : RunInv (afterAnswer s rest r) := by
  obtain ⟨hc, hall⟩ := hs
  refine ⟨hc, fun q hq => ?_⟩
  obtain hold | hnew := List.mem_append.mp hq
  · exact hall q hold
  · rw [List.mem_singleton.mp hnew]
    exact hr

theorem step_next_of_pending (hp : s.pending = w :: rest) (h : step s = .next t) :
    t.answered = s.answered ++ [respond s.rom w] := by
  rw [step_eq_answer hp] at h
  obtain ⟨-, -, -, rfl⟩ := answer_next h
  rfl

/-! ## The response word -/

/-- The codes of R76: OK, the two errors, and the unused 3. -/
theorem status_cases (code : BitVec 2) : code = 0 ∨ (∃ kind, code = errorCode kind) ∨ code = 3 := by
  have hall : code = 0 ∨ code = errorCode .invalidArgument ∨ code = errorCode .malformedInput ∨ code = 3 := by
    revert code
    decide
  obtain h | h | h | h := hall
  · exact .inl h
  · exact .inr (.inl ⟨_, h⟩)
  · exact .inr (.inl ⟨_, h⟩)
  · exact .inr (.inr h)

section ReadWord

variable {v : RspWord}

theorem status_bits {code : BitVec 2} (hs : v.extractLsb 1 0 = code) :
    v.getLsbD 1 = code.getLsbD 1 ∧ v.getLsbD 0 = code.getLsbD 0 := by
  subst hs
  simp only [BitVec.getLsbD_extractLsb]
  exact ⟨rfl, rfl⟩

theorem readWord_of_reserved (hr : v.extractLsb 15 3 ≠ 0) : readWord v = none := if_neg hr

theorem readWord_of_ok (hr : v.extractLsb 15 3 = 0) (hs : v.extractLsb 1 0 = 0) :
    readWord v = some (.ok (v.getLsbD 2) (v.extractLsb 63 16)) := by
  obtain ⟨h1, h0⟩ := status_bits hs
  rw [readWord, h1, h0]
  exact if_pos hr

theorem readWord_of_error {kind : ErrorKind} (hr : v.extractLsb 15 3 = 0) (hs : v.extractLsb 1 0 = errorCode kind) :
    readWord v = some (.error kind) := by
  obtain ⟨h1, h0⟩ := status_bits hs
  rw [readWord, h1, h0]
  cases kind <;> exact if_pos hr

theorem readWord_of_three (hs : v.extractLsb 1 0 = 3) : readWord v = none := by
  obtain ⟨h1, h0⟩ := status_bits hs
  rw [readWord, h1, h0]
  exact ite_self none

theorem readWord_eq_none : readWord v = none ↔ v.extractLsb 1 0 = 3 ∨ v.extractLsb 15 3 ≠ 0 := by
  constructor
  · intro h
    by_cases hr : v.extractLsb 15 3 = 0
    · obtain hs | ⟨kind, hs⟩ | hs := status_cases (v.extractLsb 1 0)
      · rw [readWord_of_ok hr hs] at h
        cases h
      · rw [readWord_of_error hr hs] at h
        cases h
      · exact .inl hs
    · exact .inr hr
  · rintro (hs | hr)
    · exact readWord_of_three hs
    · exact readWord_of_reserved hr

/-- Outside STATUS 0 a word is read by its STATUS and its reserved bits alone (R35). -/
theorem readWord_congr_of_status_ne_zero {v' : RspWord} (hs : v.extractLsb 1 0 = v'.extractLsb 1 0)
    (h0 : v.extractLsb 15 3 = v'.extractLsb 15 3) (hne : v.extractLsb 1 0 ≠ 0) : readWord v = readWord v' := by
  by_cases hr : v.extractLsb 15 3 = 0
  · obtain hz | ⟨kind, hk⟩ | h3 := status_cases (v.extractLsb 1 0)
    · exact absurd hz hne
    · rw [readWord_of_error hr hk, readWord_of_error (h0 ▸ hr) (hs ▸ hk)]
    · rw [readWord_of_three h3, readWord_of_three (hs ▸ h3)]
  · rw [readWord_of_reserved hr, readWord_of_reserved (h0 ▸ hr)]

end ReadWord

/-! ## The fields of a printed response -/

theorem printWord_ok_getLsbD (flag : Bool) (r : ResultWord) {k : Nat} (hk : k < 64) :
    (printWord (.ok flag r)).getLsbD k = (decide (16 ≤ k) && r.getLsbD (k - 16) || decide (k = 2) && flag) := by
  simp only [printWord, BitVec.getLsbD_or, BitVec.getLsbD_shiftLeft, BitVec.getLsbD_setWidth, BitVec.getLsbD_ofBool]
  grind

theorem printWord_ok_status (flag : Bool) (r : ResultWord) : (printWord (.ok flag r)).extractLsb 1 0 = 0 := by
  apply BitVec.eq_of_getLsbD_eq
  intro k hk
  rw [BitVec.getLsbD_extractLsb, printWord_ok_getLsbD flag r (by omega)]
  simp
  omega

theorem printWord_ok_reserved (flag : Bool) (r : ResultWord) : (printWord (.ok flag r)).extractLsb 15 3 = 0 := by
  apply BitVec.eq_of_getLsbD_eq
  intro k hk
  rw [BitVec.getLsbD_extractLsb, printWord_ok_getLsbD flag r (by omega)]
  simp
  omega

theorem printWord_ok_flag (flag : Bool) (r : ResultWord) : (printWord (.ok flag r)).getLsbD 2 = flag := by
  rw [printWord_ok_getLsbD flag r (by decide)]
  simp

theorem printWord_ok_result (flag : Bool) (r : ResultWord) : (printWord (.ok flag r)).extractLsb 63 16 = r := by
  apply BitVec.eq_of_getLsbD_eq
  intro k hk
  rw [BitVec.getLsbD_extractLsb, printWord_ok_getLsbD flag r (by omega)]
  simp [show k < 48 from hk, show 16 + k ≠ 2 by omega]

theorem readWord_printWord (r : Response) : readWord (printWord r) = some r := by
  cases r with
  | ok flag v =>
    rw [readWord_of_ok (printWord_ok_reserved flag v) (printWord_ok_status flag v), printWord_ok_flag, printWord_ok_result]
  | error kind => cases kind <;> rfl

/-! ## The constants the host observes -/

theorem xorStage_zero (c : Cfg) : xorStage c 0 = c.xorMask := Nat.zero_xor c.xorMask

theorem mulForward_one (hc : c.Usable) : mulForward c 1 = c.coprime := by
  obtain ⟨-, hm, -⟩ := Usable_sizes hc
  obtain ⟨-, hlt, -⟩ := Usable_factors hc
  rw [mulForward, reduce, product, one_mul, hm, Nat.mod_eq_of_lt (hlt.trans (by norm_num))]

theorem mulInverse_one (hc : c.Usable) : mulInverse c 1 = c.inverse := by
  obtain ⟨-, hm, -⟩ := Usable_sizes hc
  obtain ⟨-, -, -, hlt, -⟩ := Usable_factors hc
  rw [mulInverse, reduce, product, one_mul, hm, Nat.mod_eq_of_lt hlt]

/-- A command whose unit computes `v` answers `OK` with `v`. -/
theorem exec_of_response_number {n v : Nat} (h : Ready s w rest) (hi : commandResponse s.rom i = number n) (hv : n = v) :
    exec i s = .next (afterAnswer s rest (.ok false (BitVec.ofNat 48 v))) := by
  rw [exec_of_ready h, hi, hv, number]

/-! ## The obligations -/

/-- Settles O21: a step is idle or appends `respond`, whose response has one of the four forms, each well shaped. -/
theorem stepKeepsTheInvariant : Obligations.StepKeepsTheInvariant := by
  intro s t hs h
  obtain ⟨-, rfl⟩ | ⟨w, rest, ⟨hc, -⟩, rfl⟩ := step_next h
  · exact hs
  · exact RunInv_afterAnswer hs (respond_wellShaped hc w)

/-- Settles O12: what a step appends is `respond` of the constants and the oldest word. -/
theorem responseDependsOnWordAndConstantsOnly : Obligations.ResponseDependsOnWordAndConstantsOnly := by
  intro s s' t t' w rest rest' hp hp' hrom h h'
  refine ⟨respond s.rom w, step_next_of_pending hp h, ?_⟩
  rw [hrom]
  exact step_next_of_pending hp' h'

/-- Settles O56: the response appended has one of the four forms, and only that of a validation sets `FLAG`. -/
theorem onlyVal28SetsTheFlag : Obligations.OnlyVal28SetsTheFlag := by
  intro i s t r h happ
  obtain ⟨w, rest, ⟨hc, -⟩, rfl⟩ := exec_next h
  have hr : commandResponse s.rom i = .ok true r := List.singleton_inj.mp (List.append_cancel_left happ)
  exact (commandResponse_form hc i).of_flag hr

/-- Settles O58, from what `readWord` gives for each STATUS and the fields of a printed response. -/
theorem responseWordReadsBack : Obligations.ResponseWordReadsBack :=
  ⟨readWord_printWord, fun _ _ hs h0 hne => readWord_congr_of_status_ne_zero hs h0 hne, fun _ => readWord_eq_none⟩

/-- Settles O14, one clause per shape of the response list. -/
theorem receiveTakesEachResponseOnce : Obligations.ReceiveTakesEachResponseOnce :=
  ⟨fun s h => by rw [receive, h], fun s r rest h => by rw [receive, h]⟩

/-- Settles O17: the values are computed, and a word presented to the reset state makes it ready. -/
theorem resetHoldsTheConstantSet : Obligations.ResetHoldsTheConstantSet :=
  ⟨rfl, rfl, rfl, rfl, rfl, rfl, rfl, rfl, rfl, by decide, rfl, rfl,
    fun w => ⟨_, step_of_ready (w := w) (rest := []) ⟨base28_usable, rfl⟩⟩⟩

/-- Settles O19: each command answers `number` of the constant. -/
theorem constantsAreObservable : Obligations.ConstantsAreObservable := by
  intro s w rest h
  exact ⟨exec_of_response_number h rfl (xorStage_zero s.rom), exec_of_response_number h rfl (mulForward_one h.1),
    exec_of_response_number h rfl (mulInverse_one h.1)⟩

/-- Settles O20: the shipped constants are usable and no response is held. -/
theorem resetMeetsTheInvariant : Obligations.ResetMeetsTheInvariant :=
  ⟨base28_usable, fun _ hr => absurd hr List.not_mem_nil⟩

end Sys2Proof.Machine
end

section
/-! The memory family (20_memory.md): commands answered in order, strings and tokens in the words that carry them, and which characters a
response depends on. -/

namespace Sys2Proof.Machine

variable {s : State} {w : CmdWord} {rest : List CmdWord} {c : Cfg}

/-! ## A run -/

theorem run_succ_of_step {M : Host.Core} {a b : M.State} (h : M.step a = .next b) (n : Nat) :
    M.run (n + 1) a = M.run n b := by
  rw [Host.Core.run, h]

/-- The run of a ready block goes on from the state after the first answer (R57). -/
theorem run_succ_of_ready (h : Ready s w rest) (n : Nat) :
    core.run (n + 1) s = core.run n (afterAnswer s rest (respond s.rom w)) :=
  run_succ_of_step (M := core) (step_of_ready h) n

/-! ## Strings and tokens in their words -/

/-- A window into a field is a window into the word that holds the field. -/
theorem extract_of_field {m lo n lo' n' : Nat} (v : BitVec m) (h : lo' + n' ≤ n) :
    (v.extractLsb' lo n).extractLsb' lo' n' = v.extractLsb' (lo' + lo) n' := by
  apply BitVec.eq_of_getLsbD_eq
  intro i hi
  have hin : lo' + i < n := by omega
  simp only [BitVec.getLsbD_extractLsb', hi, hin, decide_true, Bool.true_and]
  congr 1
  omega

/-- The field `S` of a string command's word is the string operand (R72). -/
theorem fieldS_wordS (op len : BitVec 4) (str : BitVec 64) : fieldS (wordS op len str) = str := by
  simp only [fieldS, wordS, BitVec.extractLsb'_or]
  rw [extract_place_other 8 64 0 op (by decide), extract_place_other 8 64 4 len (by decide),
    extract_place_same 8 str (by decide), BitVec.zero_or, BitVec.zero_or]

/-- Byte `S[k]` of a command word is `CMD[8k+15:8k+8]` (R53). -/
theorem charAt_fieldS (w : CmdWord) {k : Nat} (hk : k < 8) : charAt (fieldS w) k = w.extractLsb' (8 * k + 8) 8 :=
  extract_of_field w (by omega)

theorem charAt_wordS (op len : BitVec 4) (str : BitVec 64) {k : Nat} (hk : k < 8) :
    (wordS op len str).extractLsb' (8 * k + 8) 8 = charAt str k := by
  rw [← charAt_fieldS _ hk, fieldS_wordS]

/-- `CMD[55:8]` is the low 48 bits of the field `S`, where a copied result reads back (R54). -/
theorem copied_result_wordS (op len : BitVec 4) (r : ResultWord) :
    (wordS op len (r.setWidth 64)).extractLsb 55 8 = r := by
  calc (wordS op len (r.setWidth 64)).extractLsb 55 8
      = (fieldS (wordS op len (r.setWidth 64))).extractLsb' 0 48 :=
        (extract_of_field (lo := 8) (n := 64) (lo' := 0) (n' := 48) _ (by decide)).symm
    _ = r := by rw [fieldS_wordS, BitVec.extractLsb'_setWidth_of_le (by decide), BitVec.extractLsb'_eq_self]

/-- Character `k` of a token is `RSP[8k+23:8k+16]` (R54). -/
theorem printWord_ok_char (flag : Bool) (r : ResultWord) {k : Nat} (hk : k < 6) :
    (printWord (.ok flag r)).extractLsb' (8 * k + 16) 8 = resultChar r k := by
  calc (printWord (.ok flag r)).extractLsb' (8 * k + 16) 8
      = ((printWord (.ok flag r)).extractLsb' 16 48).extractLsb' (8 * k) 8 := (extract_of_field _ (by omega)).symm
    _ = resultChar r k := congrArg (resultChar · k) (printWord_ok_result flag r)

/-! ## Tokens are made of symbols -/

theorem resultChar_mem_of_token (hc : c.Usable) {n k : Nat} {r : ResultWord} (h : token (encodeText c n) = .ok false r)
    (hk : k < 6) : resultChar r k ∈ c.alphabet := by
  cases h
  rw [resultChar_encodeText hc n hk]
  exact symbol_mem hc (Nat.mod_lt _ (by norm_num))

/-- An OK response of `ENCODE` is the token of some number (R161). -/
theorem encodeResponse_ok {x : BitVec 32} {r : ResultWord} (h : encodeResponse c x = .ok false r) :
    ∃ n, token (encodeText c n) = .ok false r := by
  unfold encodeResponse at h
  split at h
  · cases h
  · exact ⟨_, h⟩

/-! ## What a response reads of a string -/

section ReadCharacters

variable {len : BitVec 4} {str str' : BitVec 64}

theorem chars_congr {n : Nat} (h : ∀ k, k < n → charAt str k = charAt str' k) : chars n str = chars n str' :=
  List.map_congr_left fun k hk => h k (List.mem_range.mp hk)

/-- A `LEN` above 8 is answered before any character is read (R77 step 3). -/
theorem dec28Response_congr (h : len.toNat ≤ smax → chars len.toNat str = chars len.toNat str') :
    dec28Response c len str = dec28Response c len str' := by
  by_cases hlen : smax < len.toNat
  · simp only [dec28Response, if_pos hlen]
  · rw [dec28Response, dec28Response, h (Nat.le_of_not_lt hlen)]

/-- No character is read unless the length is that of a token (R150, R163). -/
theorem validToken_congr (h : len.toNat = c.toklen → chars c.toklen str = chars c.toklen str') :
    validToken c len str = validToken c len str' := by
  by_cases hlen : len.toNat = c.toklen
  · rw [validToken, validToken, h hlen]
  · simp only [validToken, hlen, decide_false, Bool.false_and]

theorem decodeResponse_congr (h : len.toNat = c.toklen → chars c.toklen str = chars c.toklen str') :
    decodeResponse c len str = decodeResponse c len str' := by
  by_cases hlen : len.toNat = c.toklen
  · rw [decodeResponse, decodeResponse, validToken_congr h, h hlen]
  · simp only [decodeResponse, validToken, hlen, decide_false, Bool.false_and, Bool.false_eq_true, if_false]

end ReadCharacters

/-! ## The obligations -/

/-- Settles O11, by induction on the words answered, over all states: each step answers the first of them. -/
theorem runAnswersCommandsInOrder : Obligations.RunAnswersCommandsInOrder := by
  intro s ws rest hc hp
  induction ws generalizing s with
  | nil =>
    cases s
    cases hp
    simp [Host.Core.run]
  | cons w ws ih =>
    calc core.run (ws.length + 1) s
        = core.run ws.length (afterAnswer s (ws ++ rest) (respond s.rom w)) := run_succ_of_ready ⟨hc, hp⟩ _
      _ = .next (State.mk s.rom rest (s.answered ++ [respond s.rom w] ++ ws.map (respond s.rom))) := ih _ hc rfl
      _ = .next (State.mk s.rom rest (s.answered ++ (w :: ws).map (respond s.rom))) := by
        rw [List.append_assoc, List.singleton_append, List.map_cons]

/-- Settles O43: the bytes of the field `S`, and the characters each of the three responses reads. -/
theorem bytesBeyondTheLengthAreIgnored : Obligations.BytesBeyondTheLengthAreIgnored := by
  refine ⟨fun len str k hk => ⟨charAt_wordS _ _ _ hk, charAt_wordS _ _ _ hk, charAt_wordS _ _ _ hk⟩, ?_⟩
  intro c len str str' hc hagree
  have hread (hlen : len.toNat ≤ 8) : chars len.toNat str = chars len.toNat str' :=
    chars_congr fun k hk => hagree k hk (hk.trans_le hlen)
  have htoken (hlen : len.toNat = c.toklen) : chars c.toklen str = chars c.toklen str' := by
    obtain ⟨-, -, -, -, -, hsix⟩ := Usable_sizes hc
    rw [← hlen]
    exact hread (by omega)
  exact ⟨dec28Response_congr hread, congrArg flagged (validToken_congr htoken), decodeResponse_congr htoken⟩

/-- Settles O44: the bytes of the two words, and that `ENC28` and `ENCODE` answer `OK` with tokens alone. -/
theorem tokenCopiesIntoAString : Obligations.TokenCopiesIntoAString := by
  refine ⟨fun flag r k hk => ⟨printWord_ok_char flag r hk, charAt_setWidth r hk⟩,
    fun r => ⟨copied_result_wordS _ _ r, copied_result_wordS _ _ r, copied_result_wordS _ _ r⟩, ?_⟩
  rintro c r hc (⟨a, h⟩ | ⟨x, h⟩) k hk
  · exact resultChar_mem_of_token hc h hk
  · obtain ⟨n, hn⟩ := encodeResponse_ok h
    exact resultChar_mem_of_token hc hn hk

end Sys2Proof.Machine
end

section
/-! The encoding family (30_encoding.md): the decoder and the encoder undo each other, format by format; the rows of the opcode map;
legal commands; the fields of the response word; and the aliases. -/

namespace Sys2Proof

/-! ## A field reads back from the word that holds it (R72) -/

@[simp] theorem fieldA_wordA (op : BitVec 4) (a : BitVec 28) : fieldA (wordA op a) = a := by
  simp (disch := decide) only [fieldA, wordA, BitVec.extractLsb'_or, extract_place_same, extract_place_other, BitVec.zero_or]

@[simp] theorem fieldA_wordM (op : BitVec 4) (a : BitVec 28) (b : BitVec 17) : fieldA (wordM op a b) = a := by
  simp (disch := decide) only [fieldA, wordM, BitVec.extractLsb'_or, extract_place_same, extract_place_other, BitVec.zero_or,
    BitVec.or_zero]

@[simp] theorem fieldB_wordM (op : BitVec 4) (a : BitVec 28) (b : BitVec 17) : fieldB (wordM op a b) = b := by
  simp (disch := decide) only [fieldB, wordM, BitVec.extractLsb'_or, extract_place_same, extract_place_other, BitVec.zero_or]

@[simp] theorem fieldW_wordW (op : BitVec 4) (v : BitVec 45) : fieldW (wordW op v) = v := by
  simp (disch := decide) only [fieldW, wordW, BitVec.extractLsb'_or, extract_place_same, extract_place_other, BitVec.zero_or]

@[simp] theorem fieldW_wordD (op : BitVec 4) (v : BitVec 45) (n : BitVec 29) : fieldW (wordD op v n) = v := by
  simp (disch := decide) only [fieldW, wordD, BitVec.extractLsb'_or, extract_place_same, extract_place_other, BitVec.zero_or,
    BitVec.or_zero]

@[simp] theorem fieldN_wordD (op : BitVec 4) (v : BitVec 45) (n : BitVec 29) : fieldN (wordD op v n) = n := by
  simp (disch := decide) only [fieldN, wordD, BitVec.extractLsb'_or, extract_place_same, extract_place_other, BitVec.zero_or]

@[simp] theorem fieldX_wordX (op : BitVec 4) (x : BitVec 32) : fieldX (wordX op x) = x := by
  simp (disch := decide) only [fieldX, wordX, BitVec.extractLsb'_or, extract_place_same, extract_place_other, BitVec.zero_or]

@[simp] theorem fieldLEN_wordS (op len : BitVec 4) (str : BitVec 64) : fieldLEN (wordS op len str) = len := by
  simp (disch := decide) only [fieldLEN, wordS, BitVec.extractLsb'_or, extract_place_same, extract_place_other, BitVec.zero_or,
    BitVec.or_zero]

/-! ## Decoding what was encoded -/

/-- The word of every command stands in the row of its opcode (R73, R78). -/
theorem encode_in_row (i : Instr) : Laws.EncodingRow.Statement i := by
  cases i with
  | mul a b => exact Laws.EncodingRow.mul a b
  | rem w n => exact Laws.EncodingRow.rem w n
  | red28 w => exact Laws.EncodingRow.red28 w
  | cvt w => exact Laws.EncodingRow.cvt w
  | mulc a => exact Laws.EncodingRow.mulc a
  | muli a => exact Laws.EncodingRow.muli a
  | ror a => exact Laws.EncodingRow.ror a
  | rol a => exact Laws.EncodingRow.rol a
  | xorm a => exact Laws.EncodingRow.xorm a
  | obf a => exact Laws.EncodingRow.obf a
  | deobf a => exact Laws.EncodingRow.deobf a
  | enc28 a => exact Laws.EncodingRow.enc28 a
  | dec28 len str => exact Laws.EncodingRow.dec28 len str
  | val28 len str => exact Laws.EncodingRow.val28 len str
  | encode x => exact Laws.EncodingRow.encode x
  | decode len str => exact Laws.EncodingRow.decode len str

/-- The operands read from the word of a command are its own (R72). -/
theorem withOperands_encode (i : Instr) : withOperands (Laws.EncodingRow.row i) (encode i) = i := by
  cases i <;> simp [Laws.EncodingRow.row, encode, withOperands, Machine.fieldS_wordS]

theorem decode_encode (i : Instr) : decode (encode i) = .ok i := by
  obtain ⟨hop, hmask⟩ := encode_in_row i
  rw [decode_of_row hop hmask, withOperands_encode]

/-! ## Encoding what was decoded: a word in its row is its opcode and the fields its format's mask leaves free -/

section Windows

variable {w m : CmdWord} {op : BitVec 4} (hrow : w &&& m = op.setWidth 96)
include hrow

/-- A word in its row, when the mask leaves one field free. -/
theorem place_field_eq {lo n : Nat} (hfree : ~~~m = place lo (BitVec.allOnes n)) :
    place 0 op ||| place lo (w.extractLsb' lo n) = w := by
  calc place 0 op ||| place lo (w.extractLsb' lo n)
      = (w &&& m) ||| (w &&& ~~~m) := by rw [hrow, hfree, and_window, place_zero]
    _ = w := and_or_and_not w m

/-- A word in its row, when the mask leaves two fields free. -/
theorem place_two_fields_eq {lo n lo' n' : Nat}
    (hfree : ~~~m = place lo (BitVec.allOnes n) ||| place lo' (BitVec.allOnes n')) :
    place 0 op ||| place lo (w.extractLsb' lo n) ||| place lo' (w.extractLsb' lo' n') = w := by
  calc place 0 op ||| place lo (w.extractLsb' lo n) ||| place lo' (w.extractLsb' lo' n')
      = (w &&& m) ||| (w &&& ~~~m) := by
        rw [hrow, hfree, BitVec.and_or_distrib_left, and_window, and_window, place_zero, BitVec.or_assoc]
    _ = w := and_or_and_not w m

end Windows

section Formats

variable {w : CmdWord} {op : BitVec 4}

theorem wordA_fields (h : w &&& formatMask .A = op.setWidth 96) : wordA op (fieldA w) = w :=
  place_field_eq h (by decide)

theorem wordM_fields (h : w &&& formatMask .M = op.setWidth 96) : wordM op (fieldA w) (fieldB w) = w :=
  place_two_fields_eq h (by decide)

theorem wordW_fields (h : w &&& formatMask .W = op.setWidth 96) : wordW op (fieldW w) = w :=
  place_field_eq h (by decide)

theorem wordD_fields (h : w &&& formatMask .D = op.setWidth 96) : wordD op (fieldW w) (fieldN w) = w :=
  place_two_fields_eq h (by decide)

theorem wordX_fields (h : w &&& formatMask .X = op.setWidth 96) : wordX op (fieldX w) = w :=
  place_field_eq h (by decide)

theorem wordS_fields (h : w &&& formatMask .S = op.setWidth 96) : wordS op (fieldLEN w) (fieldS w) = w :=
  place_two_fields_eq h (by decide)

end Formats

/-- The command that an opcode reads from a word of its row encodes to that word. -/
theorem encode_withOperands {op : Opcode} {w : CmdWord}
    (h : w &&& formatMask (formatOf op) = (opcodeNumber op).setWidth 96) : encode (withOperands op w) = w := by
  cases op with
  | mul => exact wordM_fields h
  | rem => exact wordD_fields h
  | red28 | cvt => exact wordW_fields h
  | mulc | muli | ror | rol | xorm | obf | deobf | enc28 => exact wordA_fields h
  | dec28 | val28 | decode => exact wordS_fields h
  | encode => exact wordX_fields h

theorem encode_of_decode {w : CmdWord} {i : Instr} (h : decode w = .ok i) : encode i = w := by
  obtain ⟨hrow, rfl⟩ := decode_eq_ok h
  exact encode_withOperands hrow

/-! ## Legal commands (R77 step 3, R79, R80) -/

theorem wellFormed_dec28 (len : BitVec 4) (str : BitVec 64) :
    (Instr.dec28 len str).wellFormed = true ↔ len.toNat ≤ 8 := decide_eq_true_iff

/-- `DEC28` with a `LEN` above 8 is the only illegal command. -/
theorem wellFormed_eq_false {i : Instr} : i.wellFormed = false ↔ ∃ len str, i = .dec28 len str ∧ 8 < len.toNat := by
  constructor
  · intro h
    cases i with
    | dec28 len str => exact ⟨len, str, rfl, Nat.lt_of_not_le (of_decide_eq_false h)⟩
    | mul | rem | red28 | cvt | mulc | muli | ror | rol | xorm | obf | deobf | enc28 | val28 | encode | decode => cases h
  · rintro ⟨len, str, rfl, hlen⟩
    exact decide_eq_false (Nat.not_le_of_lt hlen)

end Sys2Proof

namespace Sys2Proof.Machine

/-! ## A meaning, by its command's response -/

section Meanings

variable {s : State} {w : CmdWord} {rest : List CmdWord} {i j : Instr} {r : Response}

theorem exec_of_response (h : Ready s w rest) (hr : commandResponse s.rom i = r) :
    exec i s = .next (afterAnswer s rest r) := by
  rw [exec_of_ready h, hr]

/-- Commands with one response have one meaning. -/
theorem exec_congr (hr : commandResponse s.rom i = commandResponse s.rom j) : exec i s = exec j s := by
  rw [exec_eq_answer, exec_eq_answer, hr]

end Meanings

/-! ## The rows of the opcode map (R73, R78) -/

theorem rowDecodes (op : Opcode) :
    RowDecodes (opcodeNumber op) (formatMask (formatOf op)) (withOperands op) :=
  fun _ hop => ⟨fun hmask => decode_of_row hop hmask, fun hmask => ⟨.mustBeZero op, decode_of_mustBeZero hop hmask⟩⟩

/-! ## The response word (R75, R76) -/

theorem readStatus_ne_three (r : Response) : readStatus r ≠ 3 := by
  cases r with
  | ok flag v => simp [readStatus]
  | error kind => cases kind <;> decide

/-! ## Strings with a `LEN` above 8, which the operand `S` cannot hold (R80) -/

section LongStrings

variable {c : Cfg} {len : BitVec 4} (hlen : 8 < len.toNat)
include hlen

theorem dec28Response_of_long (str : BitVec 64) : dec28Response c len str = .error .invalidArgument := if_pos hlen

theorem validToken_of_long (hc : c.Usable) (str : BitVec 64) : validToken c len str = false := by
  obtain ⟨-, -, -, -, -, hsix⟩ := Usable_sizes hc
  have hne : len.toNat ≠ c.toklen := by omega
  rw [validToken, decide_eq_false hne, Bool.false_and]

theorem val28Response_of_long (hc : c.Usable) (str : BitVec 64) : val28Response c len str = .ok false 0 := by
  rw [val28Response, validToken_of_long hlen hc, flagged]

theorem decodeResponse_of_long (hc : c.Usable) (str : BitVec 64) :
    decodeResponse c len str = .error .malformedInput := by
  simp only [decodeResponse, validToken_of_long hlen hc, Bool.false_eq_true, if_false, raise]

end LongStrings

/-! ## `RED28` and `MULC` by other commands (R82) -/

section Identities

variable {c : Cfg} (hc : c.Usable)
include hc

theorem red28Response_eq_remResponse (v : BitVec 45) : red28Response c v = remResponse v 268435456 := by
  obtain ⟨-, hmod, -⟩ := Usable_sizes hc
  rw [red28Response, reduce, hmod]
  rfl

theorem toNat_coprime_operand : (BitVec.ofNat 17 c.coprime).toNat = c.coprime := by
  obtain ⟨-, hlt, -⟩ := Usable_factors hc
  rw [BitVec.toNat_ofNat, Nat.mod_eq_of_lt hlt]

/-- The exact product by `COPRIME` fits the operand `W`. -/
theorem exists_coprime_product (a : BitVec 28) : ∃ p : BitVec 45, p.toNat = product a.toNat c.coprime := by
  obtain ⟨-, hlt, -⟩ := Usable_factors hc
  have hp : product a.toNat c.coprime < 2 ^ 45 := (Nat.mul_lt_mul'' a.isLt hlt).trans_eq (by norm_num)
  exact ⟨BitVec.ofNat 45 (product a.toNat c.coprime), by rw [BitVec.toNat_ofNat, Nat.mod_eq_of_lt hp]⟩

end Identities

/-! ## The obligations -/

/-- Settles O2: every encoded word stands in the row of its command, whose operands read back. -/
theorem decodeInvertsEncode : Obligations.DecodeInvertsEncode := decode_encode

/-- Settles O3: a word that decodes is its opcode and the fields that its format's mask leaves free. -/
theorem encodeInvertsDecode : Obligations.EncodeInvertsDecode := fun _ _ h => encode_of_decode h

/-- Settles O1: the literal masks and bit positions are those of each opcode's format. -/
theorem decodeFollowsTheOpcodeMap : Obligations.DecodeFollowsTheOpcodeMap :=
  ⟨rowDecodes .mul, rowDecodes .rem, rowDecodes .red28, rowDecodes .cvt, rowDecodes .mulc, rowDecodes .muli, rowDecodes .ror,
    rowDecodes .rol, rowDecodes .xorm, rowDecodes .obf, rowDecodes .deobf, rowDecodes .enc28, rowDecodes .dec28,
    rowDecodes .val28, rowDecodes .encode, rowDecodes .decode⟩

/-- Settles O28: the responses are equal, by the equality of the numbers they carry. -/
theorem red28AndMulcAsOtherCommands : Obligations.Red28AndMulcAsOtherCommands := by
  intro s w rest h
  refine ⟨fun v => ?_, fun a => ?_⟩
  · exact exec_congr (red28Response_eq_remResponse h.1 v)
  · obtain ⟨p, hp⟩ := exists_coprime_product h.1 a
    have hmul : mulResponse a (BitVec.ofNat 17 s.rom.coprime) = .ok false (p.setWidth 48) := by
      rw [mulResponse, toNat_coprime_operand h.1, ← hp, number_toNat]
    have hmulc : mulcResponse s.rom a = red28Response s.rom p := by
      rw [mulcResponse, mulForward, ← hp, red28Response]
    exact ⟨p, exec_of_response h hmul, exec_congr hmulc⟩

/-- Settles O57, from the fields of a printed response and the codes of R76. -/
theorem responseWordFields : Obligations.ResponseWordFields :=
  ⟨fun flag r => ⟨printWord_ok_status flag r, printWord_ok_flag flag r, printWord_ok_reserved flag r,
    printWord_ok_result flag r, rfl, rfl, rfl⟩, rfl, rfl, rfl, rfl, fun _ => ⟨rfl, rfl⟩, readStatus_ne_three⟩

/-- Settles O4, by decoding each word. -/
theorem specWordsDecode : Obligations.SpecWordsDecode := by
  unfold Obligations.SpecWordsDecode
  decide

/-- Settles O5: the one illegal command is a `DEC28` whose length alone decides its response. -/
theorem illegalCommandAnswersInvalidArgument : Obligations.IllegalCommandAnswersInvalidArgument := by
  refine ⟨fun i => wellFormed_eq_false, fun s w rest i h hi => ?_⟩
  obtain ⟨len, str, rfl, hlen⟩ := wellFormed_eq_false.mp hi
  exact exec_of_response h (dec28Response_of_long hlen str)

/-- Settles O45: each of the three responses to a length above 8 follows from the length alone. -/
theorem unpresentableStringsAnswerByLength : Obligations.UnpresentableStringsAnswerByLength := by
  intro s w rest len str h
  exact ⟨wellFormed_dec28 len str, fun hlen => ⟨exec_of_response h (val28Response_of_long hlen h.1 str),
    exec_of_response h (decodeResponse_of_long hlen h.1 str), exec_of_response h (dec28Response_of_long hlen str)⟩⟩

/-- Settles O59, by looking up each of the ten pairs of names. -/
theorem aliasesNameTheirCommands : Obligations.AliasesNameTheirCommands := by
  unfold Obligations.AliasesNameTheirCommands
  decide

end Sys2Proof.Machine
end

section
/-! The arithmetic family (40_exact_arithmetic.md): the number each of `MUL`, `REM`, `RED28` and `CVT` answers, malformed words, and the
greatest result of every command (R107). -/

namespace Sys2Proof.Machine

variable {s : State} {w : CmdWord} {rest : List CmdWord} {c : Cfg}

/-! ## Malformed words (R77 step 2) -/

/-- Whatever the opcode, a word outside its row is answered before any operand is read. -/
theorem malformedIsInvalidArgument (op : Opcode) :
    MalformedIsInvalidArgument (opcodeNumber op) (formatMask (formatOf op)) := by
  intro s w rest h hop hmask
  rw [step_of_ready h, respond_of_decode_error s.rom (decode_of_mustBeZero hop hmask)]

/-! ## Responses that carry a number -/

/-- A response `number v` carries `v` itself when 48 bits hold it. -/
theorem exec_answers_number {i : Instr} {v : Nat} (h : Ready s w rest) (hi : commandResponse s.rom i = number v)
    (hv : v < 2 ^ 48) : ∃ r : ResultWord, r.toNat = v ∧ exec i s = .next (afterAnswer s rest (.ok false r)) :=
  ⟨BitVec.ofNat 48 v, toNat_ofNat48 hv, exec_of_response h hi⟩

theorem remResponse_zero (v : BitVec 45) : remResponse v 0 = .error .invalidArgument := rfl

theorem remResponse_of_ne_zero (v : BitVec 45) {n : BitVec 29} (hn : n ≠ 0) :
    remResponse v n = number (v.toNat % n.toNat) := if_neg hn

theorem cvtResponse_of_le {v : BitVec 45} (hv : v.toNat ≤ nativeMax) : cvtResponse v = number v.toNat :=
  if_neg (Nat.not_lt.mpr hv)

theorem cvtResponse_of_lt {v : BitVec 45} (hv : nativeMax < v.toNat) : cvtResponse v = .error .invalidArgument :=
  if_pos hv

/-! ## The numbers -/

theorem product_le (a : BitVec 28) (b : BitVec 17) : product a.toNat b.toNat ≤ 35184103522305 :=
  (Nat.mul_le_mul (Nat.le_pred_of_lt a.isLt) (Nat.le_pred_of_lt b.isLt)).trans_eq (by norm_num)

theorem remainder_lt (v : BitVec 45) {n : BitVec 29} (hn : n ≠ 0) : v.toNat % n.toNat < n.toNat :=
  Nat.mod_lt _ (Nat.pos_of_ne_zero (BitVec.toNat_ne.mp hn))

/-- `W mod MODULUS` is `W[27:0]` (R103). -/
theorem reduce_toNat {n : Nat} (hc : c.Usable) (v : BitVec n) : reduce c v.toNat = (v.setWidth 28).toNat := by
  obtain ⟨-, hmod, -⟩ := Usable_sizes hc
  rw [reduce, hmod, BitVec.toNat_setWidth]

theorem reduce_lt {n : Nat} (hc : c.Usable) (v : BitVec n) : reduce c v.toNat < 2 ^ 28 :=
  (reduce_toNat hc v).trans_lt (v.setWidth 28).isLt

/-- `R[31:0]` reads as the number itself in two's complement when bit 31 is clear (R104). -/
theorem toInt_low32 {r : ResultWord} (hr : r.toNat < 2 ^ 31) : (r.setWidth 32).toInt = r.toNat := by
  have hlow : (r.setWidth 32).toNat = r.toNat := by
    rw [BitVec.toNat_setWidth, Nat.mod_eq_of_lt (by omega)]
  rw [BitVec.toInt_eq_toNat_of_lt (by omega), hlow]

/-- The value of a string that the operand `S` can hold is below 28^8 (R107, R146). -/
theorem horner_digits_le (hc : c.Usable) {n : Nat} {str : BitVec 64} {ds : List Nat} (hn : n ≤ smax)
    (h : digits c (chars n str) = some ds) : horner c ds ≤ 377801998335 := by
  obtain ⟨hlen, -⟩ := digits_chars_eq_some.mp h
  have hlt : horner c ds < 28 ^ 8 :=
    calc horner c ds < 28 ^ ds.length := horner_lt hc ds (digits_lt hc h)
      _ ≤ 28 ^ 8 := Nat.pow_le_pow_right (by norm_num) (hlen.trans_le hn)
  omega

/-! ## The greatest result of a response -/

/-- If the response is `OK` with `FLAG` 0, its result is at most `b`. -/
def ResultAtMost (b : Nat) (p : Response) : Prop := ∀ r : ResultWord, p = .ok false r → r.toNat ≤ b

theorem resultAtMost_raise (b : Nat) (kind : ErrorKind) : ResultAtMost b (raise kind) := by
  intro r h
  cases h

theorem resultAtMost_number {b v : Nat} (hv : v ≤ b) : ResultAtMost b (number v) := by
  intro r h
  cases h
  rw [BitVec.toNat_ofNat]
  exact (Nat.mod_le _ _).trans hv

theorem resultAtMost_field {v : Nat} (hv : v < 2 ^ 28) : ResultAtMost (2 ^ 28 - 1) (number v) :=
  resultAtMost_number (Nat.le_pred_of_lt hv)

theorem remResponse_atMost (v : BitVec 45) (n : BitVec 29) : ResultAtMost (2 ^ 29 - 2) (remResponse v n) := by
  by_cases hn : n = 0
  · rw [hn, remResponse_zero]
    exact resultAtMost_raise _ _
  · have hlt := remainder_lt v hn
    rw [remResponse_of_ne_zero v hn]
    exact resultAtMost_number (by omega)

theorem cvtResponse_atMost (v : BitVec 45) : ResultAtMost (2 ^ 31 - 1) (cvtResponse v) := by
  obtain hv | hv := Nat.lt_or_ge nativeMax v.toNat
  · rw [cvtResponse_of_lt hv]
    exact resultAtMost_raise _ _
  · rw [cvtResponse_of_le hv]
    exact resultAtMost_number hv

theorem dec28Response_atMost (hc : c.Usable) (len : BitVec 4) (str : BitVec 64) :
    ResultAtMost 377801998335 (dec28Response c len str) := by
  unfold dec28Response
  split
  · exact resultAtMost_raise _ _
  · next hlen =>
    split
    · exact resultAtMost_raise _ _
    · split
      · exact resultAtMost_raise _ _
      · next hds => exact resultAtMost_number (horner_digits_le hc (Nat.le_of_not_lt hlen) hds)

theorem decodeResponse_atMost (hc : c.Usable) (len : BitVec 4) (str : BitVec 64) :
    ResultAtMost (2 ^ 28 - 1) (decodeResponse c len str) := by
  unfold decodeResponse
  split
  · split
    · exact resultAtMost_raise _ _
    · split
      · exact resultAtMost_raise _ _
      · exact resultAtMost_field (deobfuscate_lt hc)
  · exact resultAtMost_raise _ _

/-- A validation answers `R = 0` whatever its verdict (R150). -/
theorem flagged_result {b flag : Bool} {r : ResultWord} (h : flagged b = .ok flag r) : r = 0 := by
  cases h
  rfl

/-! ## The obligations -/

/-- Settles O22: the response is the product, whose bound lies below 2^45. -/
theorem mulAnswersTheExactProduct : Obligations.MulAnswersTheExactProduct := by
  refine ⟨fun s w rest a b h => ?_, malformedIsInvalidArgument .mul⟩
  have hle := product_le a b
  obtain ⟨r, hr, hexec⟩ := exec_answers_number h (i := .mul a b) rfl (by omega)
  exact ⟨r, hr, by omega, hexec⟩

/-- Settles O23: the two cases of the zero test, the remainder being below the modulus. -/
theorem remAnswersTheRemainder : Obligations.RemAnswersTheRemainder := by
  refine ⟨fun s w rest v n h => ?_, malformedIsInvalidArgument .rem⟩
  split
  · next hn =>
    subst hn
    exact exec_of_response h (remResponse_zero v)
  · next hn =>
    have hlt := remainder_lt v hn
    obtain ⟨r, hr, hexec⟩ := exec_answers_number h (i := .rem v n) (remResponse_of_ne_zero v hn) (by omega)
    exact ⟨r, hr, by omega, hexec⟩

/-- Settles O24: the remainder modulo 2^28 is the number of the low 28 bits. -/
theorem red28AnswersTheLow28Bits : Obligations.Red28AnswersTheLow28Bits := by
  refine ⟨fun s w rest v h => ?_, malformedIsInvalidArgument .red28⟩
  have hlow := reduce_toNat h.1 v
  have hresp : red28Response s.rom v = .ok false ((v.setWidth 28).setWidth 48) := by
    rw [red28Response, hlow, number_toNat]
  refine ⟨_, ?_, rfl, exec_of_response h hresp⟩
  rw [BitVec.toNat_setWidth_of_le (by decide), ← hlow, reduce]

/-- Settles O25: the two cases of the comparison with 2^31 - 1. -/
theorem cvtConvertsOrFails : Obligations.CvtConvertsOrFails := by
  refine ⟨fun s w rest v h => ?_, malformedIsInvalidArgument .cvt⟩
  split
  · next hv =>
    obtain ⟨r, hr, hexec⟩ := exec_answers_number h (i := .cvt v) (cvtResponse_of_le hv) (by omega)
    exact ⟨r, hr, by rw [toInt_low32 (by omega), hr], hexec⟩
  · next hv => exact exec_of_response h (cvtResponse_of_lt (Nat.lt_of_not_le hv))

/-- Settles O26: the bound of each command's response, the tokens by their symbols and `VAL28` by its zero result. -/
theorem resultsStayWithinTheirWidths : Obligations.ResultsStayWithinTheirWidths := by
  refine ⟨fun a => ?_, fun i r h => ?_⟩
  · have ha : a.toNat ≤ 268435455 := Nat.le_pred_of_lt a.isLt
    exact ⟨Nat.mul_le_mul_right base28.coprime ha, Nat.mul_le_mul_right base28.inverse ha⟩
  have hc := base28_usable
  cases i with
  | mul a b => exact resultAtMost_number (product_le a b) r h
  | rem v n => exact remResponse_atMost v n r h
  | red28 v => exact resultAtMost_field (reduce_lt hc _) r h
  | cvt v => exact cvtResponse_atMost v r h
  | mulc a => exact resultAtMost_field (mulForward_lt hc) r h
  | muli a => exact resultAtMost_field (mulInverse_lt hc) r h
  | ror a => exact resultAtMost_field (rotateRight_lt hc a.isLt) r h
  | rol a => exact resultAtMost_field (rotateLeft_lt hc a.isLt) r h
  | xorm a => exact resultAtMost_field (xorStage_lt hc a.isLt) r h
  | obf a => exact resultAtMost_field (obfuscate_lt hc) r h
  | deobf a => exact resultAtMost_field (deobfuscate_lt hc) r h
  | enc28 a => exact fun k hk => resultChar_mem_of_token hc h hk
  | dec28 len str => exact dec28Response_atMost hc len str r h
  | val28 len str => exact flagged_result h
  | encode x =>
    obtain ⟨n, hn⟩ := encodeResponse_ok h
    exact fun k hk => resultChar_mem_of_token hc hn hk
  | decode len str => exact decodeResponse_atMost hc len str r h

end Sys2Proof.Machine
end

section
/-! The permutation family (41_permutation.md): the number each step answers, the units and commands that undo each other, the one
fixed point of the shipped permutation, and the inverse engine from two passes of the multiplier. -/

namespace Sys2Proof.Machine

/-! ## Responses that carry a 28-bit number -/

section FieldResponses

variable {s : State} {w : CmdWord} {rest : List CmdWord} {c : Cfg} {i : Instr} {u v : Nat}

theorem exec_answers_number28 (h : Ready s w rest) (hi : commandResponse s.rom i = number v) (hv : v < 2 ^ 28) :
    ∃ r : ResultWord, r.toNat = v ∧ r.toNat < 2 ^ 28 ∧ exec i s = .next (afterAnswer s rest (.ok false r)) := by
  obtain ⟨r, hr, hexec⟩ := exec_answers_number h hi (by omega)
  exact ⟨r, hr, by omega, hexec⟩

/-- A number as an operand of the next command, and as the response that delivers it (R196). -/
theorem exists_operand {n : Nat} (hv : v < 2 ^ n) :
    ∃ y : BitVec n, y.toNat = v ∧ number v = .ok false (y.setWidth 48) := by
  have hy : (BitVec.ofNat n v).toNat = v := by rw [BitVec.toNat_ofNat, Nat.mod_eq_of_lt hv]
  exact ⟨BitVec.ofNat n v, hy, by rw [← number_toNat, hy]⟩

theorem exec_answers_operand (h : Ready s w rest) (hi : commandResponse s.rom i = number v) (hv : v < 2 ^ 28) :
    ∃ y : BitVec 28, y.toNat = v ∧ exec i s = .next (afterAnswer s rest (.ok false (y.setWidth 48))) := by
  obtain ⟨y, hy, hnum⟩ := exists_operand hv
  exact ⟨y, hy, exec_of_response h (hi.trans hnum)⟩

/-- No two numbers of 28 bits have one response. -/
theorem number_inj (hu : u < 2 ^ 28) (hv : v < 2 ^ 28) (h : number u = number v) : u = v := by
  injection h with _ hr
  rw [← toNat_ofNat48 (by omega : u < 2 ^ 48), hr, toNat_ofNat48 (by omega)]

/-- Commands undo each other as the units behind them do. -/
theorem undoes_of_units {f g : Nat → Nat} {first second : BitVec 28 → Instr}
    (hfirst : ∀ a, commandResponse c (first a) = number (f a.toNat))
    (hsecond : ∀ a, commandResponse c (second a) = number (g a.toNat))
    (hlt : ∀ v < 2 ^ 28, f v < 2 ^ 28) (hgf : ∀ v < 2 ^ 28, g (f v) = v) : Undoes c second first := by
  intro a
  obtain ⟨y, hy, hnum⟩ := exists_operand (hlt a.toNat a.isLt)
  refine ⟨y, (hfirst a).trans hnum, ?_⟩
  rw [hsecond, hy, hgf _ a.isLt, number_toNat]

end FieldResponses

/-! ## The units, and which of them undo each other (R128) -/

section Units

variable {c : Cfg} {v : Nat}

/-- Bit `i` of a rotation left by `k` is bit `i - k` of the operand, around the field (R124). -/
theorem testBit_rotl {k : Nat} (i : Nat) (hk : k < 28) (hv : v < 2 ^ 28) :
    (rotl 28 k v).testBit i = (decide (i < 28) && v.testBit ((i + (28 - k)) % 28)) := by
  obtain rfl | hpos := Nat.eq_zero_or_pos k
  · by_cases hi : i < 28
    · simp [rotl_zero hv, hi, Nat.mod_eq_of_lt hi]
    · have hbit : v.testBit i = false :=
        Nat.testBit_lt_two_pow (hv.trans_le (Nat.pow_le_pow_right (by decide) (Nat.le_of_not_lt hi)))
      simp [rotl_zero hv, hi, hbit]
  · rw [rotl_eq_rotr v hk, testBit_rotr i (by omega) hv]

variable (hc : c.Usable)
include hc

theorem rotateLeft_rotateRight (hv : v < 2 ^ 28) : rotateLeft c (rotateRight c v) = v := by
  obtain ⟨-, -, -, hrot, -⟩ := Usable_sizes hc
  rw [rotateRight_eq hc, rotateLeft_eq hc, rotl_rotr hrot hv]

theorem rotateRight_rotateLeft (hv : v < 2 ^ 28) : rotateRight c (rotateLeft c v) = v := by
  obtain ⟨-, -, -, hrot, -⟩ := Usable_sizes hc
  rw [rotateLeft_eq hc, rotateRight_eq hc, rotr_rotl hrot hv]

theorem deobfuscate_obfuscate (hv : v < 2 ^ 28) : deobfuscate c (obfuscate c v) = v := by
  rw [deobfuscate, obfuscate, xorStage_xorStage, rotateLeft_rotateRight hc (mulForward_lt hc), mulInverse_mulForward hc hv]

theorem obfuscate_deobfuscate (hv : v < 2 ^ 28) : obfuscate c (deobfuscate c v) = v := by
  have hrot := rotateLeft_lt hc (xorStage_lt hc hv)
  rw [obfuscate, deobfuscate, mulForward_mulInverse hc hrot, rotateRight_rotateLeft hc (xorStage_lt hc hv), xorStage_xorStage]

/-! ## The commands, likewise -/

theorem muli_undoes_mulc : Undoes c .muli .mulc :=
  undoes_of_units (fun _ => rfl) (fun _ => rfl) (fun _ _ => mulForward_lt hc) (fun _ => mulInverse_mulForward hc)

theorem mulc_undoes_muli : Undoes c .mulc .muli :=
  undoes_of_units (fun _ => rfl) (fun _ => rfl) (fun _ _ => mulInverse_lt hc) (fun _ => mulForward_mulInverse hc)

theorem rol_undoes_ror : Undoes c .rol .ror :=
  undoes_of_units (fun _ => rfl) (fun _ => rfl) (fun _ => rotateRight_lt hc) (fun _ => rotateLeft_rotateRight hc)

theorem ror_undoes_rol : Undoes c .ror .rol :=
  undoes_of_units (fun _ => rfl) (fun _ => rfl) (fun _ => rotateLeft_lt hc) (fun _ => rotateRight_rotateLeft hc)

theorem xorm_undoes_xorm : Undoes c .xorm .xorm :=
  undoes_of_units (fun _ => rfl) (fun _ => rfl) (fun _ => xorStage_lt hc) (fun _ _ => xorStage_xorStage)

theorem deobf_undoes_obf : Undoes c .deobf .obf :=
  undoes_of_units (fun _ => rfl) (fun _ => rfl) (fun _ _ => obfuscate_lt hc) (fun _ => deobfuscate_obfuscate hc)

theorem obf_undoes_deobf : Undoes c .obf .deobf :=
  undoes_of_units (fun _ => rfl) (fun _ => rfl) (fun _ _ => deobfuscate_lt hc) (fun _ => obfuscate_deobfuscate hc)

theorem obf_injective {a b : BitVec 28} (h : commandResponse c (.obf a) = commandResponse c (.obf b)) : a = b := by
  have hobf : obfuscate c a.toNat = obfuscate c b.toNat := number_inj (obfuscate_lt hc) (obfuscate_lt hc) h
  apply BitVec.eq_of_toNat_eq
  rw [← deobfuscate_obfuscate hc a.isLt, hobf, deobfuscate_obfuscate hc b.isLt]

end Units

/-! ## The fixed point under the shipped constants (R129)

`DEOBF` rotates left by seven. With the seven bits that wrap around given, its low bits depend on seven bits fewer of the operand, so
a fixed operand is found from the wrapped bits in four turns from any start. -/

/-- `deobfuscate` under the shipped constants, the seven bits that the rotation wraps around replaced by `d`. -/
def deobfuscateWrapping (d x : Nat) : Nat := mulInverse base28 (xorStage base28 x * 2 ^ 7 + d)

theorem deobfuscate_eq_wrapping (x : Nat) :
    deobfuscate base28 x = deobfuscateWrapping (xorStage base28 x / 2 ^ 21) x := by
  have hlow (z : Nat) : rotl 28 7 z ≡ z * 2 ^ 7 + z / 2 ^ 21 [MOD 2 ^ 28] := (Nat.mod_modEq _ _).add_right _
  rw [deobfuscate, rotateLeft_eq base28_usable]
  exact (hlow _).mul_right base28.inverse

/-- Seven more bits of the result are known than of the operand. -/
theorem deobfuscateWrapping_modEq {k x y : Nat} (d : Nat) (hk : k + 7 ≤ 28) (h : x ≡ y [MOD 2 ^ k]) :
    deobfuscateWrapping d x ≡ deobfuscateWrapping d y [MOD 2 ^ (k + 7)] := by
  have hxor : xorStage base28 x ≡ xorStage base28 y [MOD 2 ^ k] := by
    rw [xorStage, xorStage, Nat.ModEq, Nat.xor_mod_two_pow, Nat.xor_mod_two_pow, h]
  have hsum : xorStage base28 x * 2 ^ 7 + d ≡ xorStage base28 y * 2 ^ 7 + d [MOD 2 ^ (k + 7)] := by
    rw [pow_add]
    exact (hxor.mul_right' (2 ^ 7)).add_right d
  have hlow (z : Nat) : deobfuscateWrapping d z ≡ (xorStage base28 z * 2 ^ 7 + d) * base28.inverse [MOD 2 ^ (k + 7)] :=
    Nat.mod_mod_of_dvd _ (Nat.pow_dvd_pow 2 hk)
  exact (hlow x).trans ((hsum.mul_right _).trans (hlow y).symm)

theorem iterate_wrapping_modEq {d y : Nat} (hy : deobfuscateWrapping d y = y) :
    ∀ n ≤ 4, (deobfuscateWrapping d)^[n] 0 ≡ y [MOD 2 ^ (7 * n)]
  | 0, _ => Nat.modEq_one
  | n + 1, hn => by
    have ih := iterate_wrapping_modEq hy n (by omega)
    have hturn := deobfuscateWrapping_modEq d (by omega) ih
    rwa [hy, ← Function.iterate_succ_apply' (deobfuscateWrapping d)] at hturn

/-- Of the 128 values of the wrapped bits only one agrees with the operand it determines. -/
theorem wrapped_bits_determine :
    ∀ d < 128, xorStage base28 ((deobfuscateWrapping d)^[4] 0) / 2 ^ 21 = d →
      (deobfuscateWrapping d)^[4] 0 = 208557222 := by decide

theorem eq_of_deobfuscate_eq {x : Nat} (hx : x < 2 ^ 28) (h : deobfuscate base28 x = x) : x = 208557222 := by
  have hc := base28_usable
  have hfix : deobfuscateWrapping (xorStage base28 x / 2 ^ 21) x = x := by rw [← deobfuscate_eq_wrapping, h]
  have hiter : (deobfuscateWrapping (xorStage base28 x / 2 ^ 21))^[4] 0 = x := by
    apply (iterate_wrapping_modEq hfix 4 le_rfl).eq_of_lt_of_lt _ hx
    rw [Function.iterate_succ_apply']
    exact mulInverse_lt hc
  have hd : xorStage base28 x / 2 ^ 21 < 128 := Nat.div_lt_of_lt_mul (xorStage_lt hc hx)
  rw [← wrapped_bits_determine _ hd (by rw [hiter]), hiter]

theorem obfuscate_eq_self_iff {x : Nat} (hx : x < 2 ^ 28) : obfuscate base28 x = x ↔ x = 208557222 := by
  constructor
  · intro h
    have hback := deobfuscate_obfuscate base28_usable hx
    rw [h] at hback
    exact eq_of_deobfuscate_eq hx hback
  · rintro rfl
    decide

theorem obf_answers_operand_iff (a : BitVec 28) :
    commandResponse base28 (.obf a) = .ok false (a.setWidth 48) ↔ a = 208557222 := by
  rw [← number_toNat, ← BitVec.toNat_inj]
  refine Iff.trans ⟨fun h => ?_, fun h => congrArg number h⟩ (obfuscate_eq_self_iff a.isLt)
  exact number_inj (obfuscate_lt base28_usable) a.isLt h

/-! ## The inverse engine (R131) -/

theorem mul_answers_operand (c : Cfg) (a : BitVec 28) (b : BitVec 17) :
    ∃ p : BitVec 45, p.toNat = product a.toNat b.toNat ∧ commandResponse c (.mul a b) = .ok false (p.setWidth 48) :=
  exists_operand ((product_le a b).trans_lt (by norm_num))

/-- The bits of `a * hi` from position 11 up leave the field when shifted by 17. -/
theorem mulInverse_from_two_products (a : Nat) :
    mulInverse base28 a = reduce base28 (product a 4369 + product a 1784 % 2048 * 2 ^ 17) := by
  simp only [mulInverse, reduce, product, base28]
  omega

theorem two_products_fit (a : BitVec 28) : product a.toNat 4369 + product a.toNat 1784 % 2048 * 2 ^ 17 < 2 ^ 45 := by
  simp only [product]
  omega

/-! ## The obligations -/

/-- Settles O27: the response is the forward product, reduced. -/
theorem mulcMultipliesByTheCoprime : Obligations.MulcMultipliesByTheCoprime :=
  ⟨fun _ _ _ a h => exec_answers_number28 h (i := .mulc a) rfl (mulForward_lt h.1), malformedIsInvalidArgument .mulc⟩

/-- Settles O29: the response is the inverse engine's number, and the units cancel. -/
theorem muliMultipliesByTheInverse : Obligations.MuliMultipliesByTheInverse :=
  ⟨fun _ _ _ a h => exec_answers_number28 h (i := .muli a) rfl (mulInverse_lt h.1),
    fun _ hc => ⟨muli_undoes_mulc hc, mulc_undoes_muli hc⟩, malformedIsInvalidArgument .muli⟩

/-- Settles O30, from the bits of a rotation right. -/
theorem rorRotatesRight : Obligations.RorRotatesRight := by
  refine ⟨fun s w rest a h => ?_, malformedIsInvalidArgument .ror⟩
  obtain ⟨-, -, -, hrot, -⟩ := Usable_sizes h.1
  obtain ⟨r, hr, -, hexec⟩ := exec_answers_number28 h (i := .ror a) rfl (rotateRight_lt h.1 a.isLt)
  rw [rotateRight_eq h.1] at hr
  refine ⟨r, fun i => ?_, hr, hexec⟩
  rw [← BitVec.testBit_toNat, hr, testBit_rotr i hrot a.isLt, BitVec.testBit_toNat]

/-- Settles O31, from the bits of a rotation left and the cancellation of the two rotations. -/
theorem rolRotatesLeft : Obligations.RolRotatesLeft := by
  refine ⟨fun s w rest a h => ?_, fun _ hc => ⟨rol_undoes_ror hc, ror_undoes_rol hc⟩, malformedIsInvalidArgument .rol⟩
  obtain ⟨-, -, -, hrot, -⟩ := Usable_sizes h.1
  obtain ⟨r, hr, -, hexec⟩ := exec_answers_number28 h (i := .rol a) rfl (rotateLeft_lt h.1 a.isLt)
  rw [rotateLeft_eq h.1] at hr
  refine ⟨r, fun i => ?_, hr, hexec⟩
  rw [← BitVec.testBit_toNat, hr, testBit_rotl i hrot a.isLt, BitVec.testBit_toNat]

/-- Settles O32, from the bits of an exclusive or. -/
theorem xormMasksEveryBit : Obligations.XormMasksEveryBit := by
  refine ⟨fun s w rest a h => ?_, fun _ hc => xorm_undoes_xorm hc, malformedIsInvalidArgument .xorm⟩
  obtain ⟨r, hr, hlt, hexec⟩ := exec_answers_number28 h (i := .xorm a) rfl (xorStage_lt h.1 a.isLt)
  refine ⟨r, fun i => ?_, hlt, hexec⟩
  rw [← BitVec.testBit_toNat, hr, xorStage, Nat.testBit_xor, BitVec.testBit_toNat]

/-- Settles O33: each step's number is the operand of the next, and `OBF` answers the last. -/
theorem obfComposesTheForwardSteps : Obligations.ObfComposesTheForwardSteps := by
  refine ⟨fun s w rest a h => ?_, malformedIsInvalidArgument .obf⟩
  obtain ⟨p, hp, hmulc⟩ := exec_answers_operand h (i := .mulc a) rfl (mulForward_lt h.1)
  obtain ⟨q, hq, hror⟩ := exec_answers_operand h (i := .ror p) rfl (rotateRight_lt h.1 p.isLt)
  obtain ⟨r, hr, hxorm⟩ := exec_answers_operand h (i := .xorm q) rfl (xorStage_lt h.1 q.isLt)
  have hobf : commandResponse s.rom (.obf a) = .ok false (r.setWidth 48) := by
    rw [← number_toNat, hr, hq, hp]
    rfl
  rw [rotateRight_eq h.1] at hq
  exact ⟨p, q, r, hp, hq, hr, hmulc, hror, hxorm, exec_of_response h hobf⟩

/-- Settles O34: each step's number is the operand of the next, and `DEOBF` answers the last. -/
theorem deobfComposesTheInverseSteps : Obligations.DeobfComposesTheInverseSteps := by
  refine ⟨fun s w rest a h => ?_, malformedIsInvalidArgument .deobf⟩
  obtain ⟨u, hu, hxorm⟩ := exec_answers_operand h (i := .xorm a) rfl (xorStage_lt h.1 a.isLt)
  obtain ⟨v, hv, hrol⟩ := exec_answers_operand h (i := .rol u) rfl (rotateLeft_lt h.1 u.isLt)
  obtain ⟨r, hr, hmuli⟩ := exec_answers_operand h (i := .muli v) rfl (mulInverse_lt h.1)
  have hdeobf : commandResponse s.rom (.deobf a) = .ok false (r.setWidth 48) := by
    rw [← number_toNat, hr, hv, hu]
    rfl
  rw [rotateLeft_eq h.1] at hv
  exact ⟨u, v, r, hu, hv, hr, hxorm, hrol, hmuli, exec_of_response h hdeobf⟩

/-- Settles O35, from the pairs of commands that undo each other. -/
theorem permutationIsABijection : Obligations.PermutationIsABijection :=
  fun _ hc => ⟨muli_undoes_mulc hc, mulc_undoes_muli hc, rol_undoes_ror hc, ror_undoes_rol hc, xorm_undoes_xorm hc,
    deobf_undoes_obf hc, obf_undoes_deobf hc, fun _ _ => obf_injective hc⟩

/-- Settles O36: the wrapped bits determine a fixed operand, and the four intermediate values are computed. -/
theorem shippedPermutationHasOneFixedPoint : Obligations.ShippedPermutationHasOneFixedPoint :=
  ⟨obf_answers_operand_iff, by decide, by decide, by decide, by decide⟩

/-- Settles O37: the two products and the remainder are the numbers of their commands, and their sum fits `W`. -/
theorem inverseEngineFromTwoMultiplierPasses : Obligations.InverseEngineFromTwoMultiplierPasses := by
  refine ⟨by decide, fun a => ?_⟩
  obtain ⟨p, hp, hlo⟩ := mul_answers_operand base28 a 4369
  obtain ⟨q, hq, hhi⟩ := mul_answers_operand base28 a 1784
  have hm : (BitVec.ofNat 48 (q.toNat % 2048)).toNat = product a.toNat 1784 % 2048 := by
    rw [toNat_ofNat48 (by omega), hq]
    rfl
  have hfit : p.toNat + (BitVec.ofNat 48 (q.toNat % 2048)).toNat * 2 ^ 17 < 2 ^ 45 := by
    rw [hp, hm]
    exact two_products_fit a
  refine ⟨p, q, BitVec.ofNat 48 (q.toNat % 2048), hlo, hhi, remResponse_of_ne_zero q (by decide), hfit, ?_⟩
  change number (mulInverse base28 a.toNat) = number (reduce base28 (BitVec.ofNat 45 _).toNat)
  rw [mulInverse_from_two_products, BitVec.toNat_ofNat, Nat.mod_eq_of_lt hfit, hp, hm]
  rfl

end Sys2Proof.Machine
end

section
/-! The text family (42_base28_text.md): folding and `index` over all bytes, the digits of a number and the value of its digits, and what
each of `ENC28`, `DEC28`, `VAL28` and `DECODE` answers to a string by its length and its symbols. -/

namespace Sys2Proof.Machine

/-! ## Folding and symbols (R141, R142) -/

section Symbols

variable {c : Cfg} {b : Byte} {d m : Nat}

theorem upper_of_lowerCase (h : LowerCase b) : upper b = b - 0x20 := if_pos h

theorem upper_of_not_lowerCase (h : ¬ LowerCase b) : upper b = b := if_neg h

theorem index_eq_none (hc : c.Usable) : index c b = none ↔ upper b ∉ c.alphabet := by
  rw [Option.eq_none_iff_forall_ne_some, List.mem_iff_getElem?, not_exists]
  exact forall_congr' fun _ => not_congr (index_eq_some hc)

theorem shipped_symbol_range : ∀ b ∈ base28.alphabet, 0x20 ≤ b.toNat ∧ b.toNat < 0x7F := by decide

/-- A control character or a byte from 0x7F up is its own folded form and no symbol. -/
theorem index_of_unprintable (h : b.toNat < 0x20 ∨ 0x7F ≤ b.toNat) : index base28 b = none := by
  rw [index_eq_none base28_usable, upper_of_not_lowerCase (by omega)]
  intro hmem
  obtain ⟨hlo, hhi⟩ := shipped_symbol_range b hmem
  omega

theorem symbol_mem_take (hc : c.Usable) (hd : d < m) (hm : m ≤ 28) : symbol c d ∈ c.alphabet.take m := by
  have hget : (c.alphabet.take m)[d]? = some (symbol c d) := by
    rw [List.getElem?_take_of_lt hd, alphabet_symbol hc (hd.trans_le hm)]
  exact List.mem_of_getElem? hget

end Symbols

/-! ## Digits and values in base 28 (R144, R146) -/

section Values

variable {c : Cfg} (hc : c.Usable)
include hc

/-- The value of the last `t` digits of a number is the number modulo 28^t. -/
theorem horner_digits_of_number (t n : Nat) :
    horner c ((List.range t).map fun k => n / 28 ^ (t - 1 - k) % 28) = n % 28 ^ t := by
  obtain ⟨-, -, -, -, hradix, -⟩ := Usable_sizes hc
  induction t generalizing n with
  | zero => simp [horner, Nat.mod_one]
  | succ t ih =>
    have hhigh : (List.range t).map (fun k => n / 28 ^ (t + 1 - 1 - k) % 28) =
        (List.range t).map (fun k => n / 28 / 28 ^ (t - 1 - k) % 28) := by
      refine List.map_congr_left fun k hk => ?_
      have hkt := List.mem_range.mp hk
      rw [Nat.div_div_eq_div_mul, ← pow_succ', show t - 1 - k + 1 = t + 1 - 1 - k by omega]
    rw [List.range_succ, List.map_append, hhigh, List.map_singleton, horner_append, ih, hradix, pow_succ', Nat.mod_mul]
    simp [add_comm, mul_comm]

/-- The digits of the value of a digit list are the list. -/
theorem digit_of_horner {ds : List Nat} (hds : ∀ d ∈ ds, d < 28) {k : Nat} (hk : k < ds.length) :
    ds[k]? = some (horner c ds / 28 ^ (ds.length - 1 - k) % 28) := by
  obtain ⟨-, -, -, -, hradix, -⟩ := Usable_sizes hc
  induction ds using List.reverseRecOn with
  | nil => simp at hk
  | append_singleton ds d ih =>
    have hd : d < 28 := hds d (by simp)
    rw [List.length_append, List.length_singleton] at hk ⊢
    rw [horner_append, hradix]
    obtain hlt | rfl := Nat.lt_succ_iff_lt_or_eq.mp hk
    · rw [List.getElem?_append_left hlt, ih (fun x hx => hds x (List.mem_append_left _ hx)) hlt,
        show ds.length + 1 - 1 - k = (ds.length - 1 - k) + 1 by omega, pow_succ', ← Nat.div_div_eq_div_mul,
        show (horner c ds * 28 + d) / 28 = horner c ds by omega]
    · rw [List.getElem?_concat_length, Nat.add_sub_cancel, Nat.sub_self, pow_zero, Nat.div_one, Nat.mul_add_mod_self_right,
        Nat.mod_eq_of_lt hd]

end Values

/-! ## The responses to a string, by its length and its characters -/

section Strings

variable {c : Cfg} {len : BitVec 4} {str : BitVec 64} {n k : Nat} {ds : List Nat}

theorem exists_digits_chars :
    (∃ ds, digits c (chars n str) = some ds) ↔ ∀ k, k < n → index c (charAt str k) ≠ none := by
  rw [← Option.ne_none_iff_exists', Ne, digits_chars_eq_none]
  simp only [not_exists, not_and]

theorem digits_chars_of_index {d : Nat → Nat} (h : ∀ k, k < n → index c (charAt str k) = some (d k)) :
    digits c (chars n str) = some ((List.range n).map d) := by
  refine digits_chars_eq_some.mpr ⟨by simp, fun k hk => ?_⟩
  rw [h k hk, List.getElem?_map, List.getElem?_range hk, Option.map_some]

theorem dec28Response_of_empty (str : BitVec 64) : dec28Response c 0 str = .error .malformedInput := rfl

theorem dec28Response_of_digits (hpos : 0 < len.toNat) (hlen : len.toNat ≤ 8)
    (h : digits c (chars len.toNat str) = some ds) : dec28Response c len str = number (horner c ds) := by
  have hne : len ≠ 0#4 := by
    rintro rfl
    exact absurd hpos (by decide)
  rw [dec28Response, if_neg (Nat.not_lt.mpr hlen), if_neg hne, h]

theorem dec28Response_of_nonSymbol (hlen : len.toNat ≤ 8) (hk : k < len.toNat) (h : index c (charAt str k) = none) :
    dec28Response c len str = .error .malformedInput := by
  rw [dec28Response, if_neg (Nat.not_lt.mpr hlen), digits_chars_eq_none.mpr ⟨k, hk, h⟩]
  exact ite_self _

/-- The strict check, character by character (R150). -/
theorem validToken_iff_symbols (hc : c.Usable) :
    validToken c len str = true ↔ len = 6 ∧ ∀ k, k < 6 → index c (charAt str k) ≠ none := by
  rw [validToken_iff hc, exists_digits_chars]

theorem validToken_of_symbols (hc : c.Usable) (h : ∀ k, k < len.toNat → index c (charAt str k) ≠ none) :
    validToken c len str = (len == 6) := by
  rw [Bool.eq_iff_iff, validToken_iff_symbols hc, beq_iff_eq, and_iff_left_iff_imp]
  rintro rfl
  exact h

theorem validToken_of_nonSymbol (hc : c.Usable) (hk : k < len.toNat) (h : index c (charAt str k) = none) :
    validToken c len str = false := by
  rw [Bool.eq_false_iff, Ne, validToken_iff_symbols hc]
  rintro ⟨rfl, hall⟩
  exact hall k hk h

/-- `DECODE` applies the strict check first (R147, R163). -/
theorem decodeResponse_of_not_validToken (h : validToken c len str = false) :
    decodeResponse c len str = .error .malformedInput := by
  rw [decodeResponse, h]
  rfl

end Strings

/-! ## Six-character strings and tokens (R144, R151) -/

section Tokens

variable {c : Cfg} (hc : c.Usable)
include hc

/-- The leading digit of a 28-bit number is at most 15, since 2^28 is below 16 * 28^5. -/
theorem leading_symbol_mem (a : BitVec 28) : symbol c (a.toNat / 28 ^ 5 % 28) ∈ c.alphabet.take 16 :=
  symbol_mem_take hc (by omega) (by norm_num)

/-- A token copied into the string operand reads back the digits of its number. -/
theorem index_charAt_token (n : Nat) {k : Nat} (hk : k < 6) :
    index c (charAt ((BitVec.ofNat 48 (packChars (encodeText c n))).setWidth 64) k) = some (n / 28 ^ (5 - k) % 28) := by
  rw [charAt_setWidth _ hk, resultChar_encodeText hc n hk, index_symbol hc (Nat.mod_lt _ (by norm_num))]

theorem val28Response_token (n : Nat) :
    val28Response c 6 ((BitVec.ofNat 48 (packChars (encodeText c n))).setWidth 64) = .ok true 0 := by
  have hvalid := (validToken_iff_symbols hc (len := 6)).mpr ⟨rfl, fun k hk => by
    rw [index_charAt_token hc n hk]
    exact Option.some_ne_none _⟩
  rw [val28Response, hvalid, flagged]

theorem dec28Response_token {n : Nat} (hn : n < 28 ^ 6) :
    dec28Response c 6 ((BitVec.ofNat 48 (packChars (encodeText c n))).setWidth 64) = number n := by
  have hds := digits_chars_of_index fun k hk => index_charAt_token hc n (k := k) hk
  rw [dec28Response_of_digits (len := 6) (by decide) (by decide) hds]
  exact congrArg number ((horner_digits_of_number hc 6 n).trans (Nat.mod_eq_of_lt hn))

/-- The value of a six-character string determines its upper-case form. -/
theorem upper_charAt_of_dec28 {str : BitVec 64} {v : ResultWord} (h : dec28Response c 6 str = .ok false v) {k : Nat}
    (hk : k < 6) : upper (charAt str k) = symbol c (v.toNat / 28 ^ (5 - k) % 28) := by
  cases hds : digits c (chars 6 str) with
  | none =>
    obtain ⟨j, hj, hnone⟩ := digits_chars_eq_none.mp hds
    cases (dec28Response_of_nonSymbol (len := 6) (by decide) hj hnone).symm.trans h
  | some ds =>
    obtain ⟨hlen, hindex⟩ := digits_chars_eq_some.mp hds
    cases (dec28Response_of_digits (len := 6) (by decide) (by decide) hds).symm.trans h
    have hlt : horner c ds < 2 ^ 45 := horner_digits_lt hc (by decide) hds
    have hdigit := digit_of_horner hc (digits_lt hc hds) (hk.trans_eq hlen.symm)
    rw [hlen, ← hindex k hk] at hdigit
    rw [toNat_ofNat48 (hlt.trans (by norm_num))]
    exact (symbol_of_index hc hdigit).2.symm

theorem enc28_injective {a b : BitVec 28} (h : commandResponse c (.enc28 a) = commandResponse c (.enc28 b)) : a = b := by
  have hsmall (x : BitVec 28) : x.toNat < 28 ^ 6 := x.isLt.trans (by norm_num)
  have hr : BitVec.ofNat 48 (packChars (encodeText c a.toNat)) = BitVec.ofNat 48 (packChars (encodeText c b.toNat)) :=
    (Response.ok.inj h).2
  have hnum : number a.toNat = number b.toNat := by
    rw [← dec28Response_token hc (hsmall a), hr, dec28Response_token hc (hsmall b)]
  exact BitVec.eq_of_toNat_eq (number_inj a.isLt b.isLt hnum)

end Tokens

/-! ## The obligations -/

/-- Settles O39: `index` is a position in the alphabet, and the excluded bytes fold to no symbol; the 256 values are counted. -/
theorem indexFindsTheUniqueSymbol : Obligations.IndexFindsTheUniqueSymbol := by
  refine ⟨fun b i => ?_, by decide, by decide, fun b hb => index_of_unprintable hb⟩
  rw [index_eq_some base28_usable, iff_and_self]
  exact fun h => (List.getElem?_eq_some_iff.mp h).1

/-- Settles O40, by the closed form of `encodeText`. -/
theorem enc28WritesTheDigits : Obligations.Enc28WritesTheDigits := by
  refine ⟨fun s w rest a h => ⟨_, fun k hk => ?_, ?_, exec_of_ready h _⟩, malformedIsInvalidArgument .enc28⟩
  · rw [resultChar_encodeText h.1 _ hk, alphabet_symbol h.1 (Nat.mod_lt _ (by norm_num))]
  · rw [resultChar_encodeText h.1 _ (by norm_num)]
    exact leading_symbol_mem h.1 a

/-- Settles O41, one law of `dec28Response` per clause; the value is the sum of `horner_eq_sum`, below 28^8. -/
theorem dec28ReadsTheDigits : Obligations.Dec28ReadsTheDigits := by
  refine ⟨fun s w rest len str h => ⟨fun hlong => ?_, ?_, ?_, fun d hpos hlen hd => ?_⟩, malformedIsInvalidArgument .dec28⟩
  · exact exec_of_response h (dec28Response_of_long hlong str)
  · rintro rfl
    exact exec_of_response h (dec28Response_of_empty str)
  · rintro hlen ⟨k, hk, hnone⟩
    exact exec_of_response h (dec28Response_of_nonSymbol hlen hk hnone)
  · have hds := digits_chars_of_index hd
    have hle := horner_digits_le h.1 hlen hds
    obtain ⟨r, hr, hexec⟩ :=
      exec_answers_number h (i := .dec28 len str) (dec28Response_of_digits hpos hlen hds) (by omega)
    refine ⟨r, ?_, by omega, hexec⟩
    rw [hr, horner_eq_sum h.1, List.length_map, List.length_range]
    congr 1
    refine List.map_congr_left fun k hk => ?_
    rw [List.getD_eq_getElem?_getD, List.getElem?_map, List.getElem?_range (List.mem_range.mp hk)]
    rfl

/-- Settles O42: the flag is the strict check, whatever the length and the bytes. -/
theorem val28ValidatesSixSymbols : Obligations.Val28ValidatesSixSymbols :=
  ⟨fun s _ _ len str h => ⟨validToken s.rom len str, validToken_iff_symbols h.1, exec_of_ready h (.val28 len str)⟩,
    malformedIsInvalidArgument .val28⟩

/-- Settles O46: the strict check is the length alone on a string of symbols, and fails at a character that is none. -/
theorem dec28IsLenientVal28IsStrict : Obligations.Dec28IsLenientVal28IsStrict := by
  refine ⟨fun c len str hc hpos hlen hsym => ?_, fun c len str k hc hlen hk hnone => ?_⟩
  · have hvalid := validToken_of_symbols hc hsym
    obtain ⟨ds, hds⟩ := exists_digits_chars.mpr hsym
    refine ⟨⟨_, dec28Response_of_digits hpos hlen hds⟩, congrArg flagged hvalid, fun hne => ?_⟩
    exact decodeResponse_of_not_validToken (hvalid.trans (beq_eq_false_iff_ne.mpr hne))
  · have hvalid := validToken_of_nonSymbol hc hk hnone
    exact ⟨dec28Response_of_nonSymbol hlen hk hnone, congrArg flagged hvalid, decodeResponse_of_not_validToken hvalid⟩

/-- Settles O47: the value of a token's digits is its number, and the digits of a string's value are those of its characters. -/
theorem textCodecRoundTrips : Obligations.TextCodecRoundTrips := by
  refine fun c hc => ⟨fun a => ⟨_, rfl, val28Response_token hc _, ?_⟩, fun a b => enc28_injective hc,
    fun str v h => ⟨_, rfl, fun k hk => ?_⟩, fun str str' v h h' k hk => ?_⟩
  · exact (dec28Response_token hc (a.isLt.trans (by norm_num))).trans (number_toNat a)
  · rw [resultChar_encodeText hc _ hk, upper_charAt_of_dec28 hc h hk, BitVec.toNat_setWidth_of_le (by decide)]
  · rw [upper_charAt_of_dec28 hc h hk, upper_charAt_of_dec28 hc h' hk]

/-- Settles O38, by the two cases of folding. -/
theorem upperFoldsLowerCaseOnly : Obligations.UpperFoldsLowerCaseOnly := by
  refine fun b => ⟨fun h => ?_, fun h => upper_of_not_lowerCase (by omega)⟩
  rw [upper_of_lowerCase h, BitVec.toNat_sub_of_le (BitVec.le_def.mpr (Nat.le_trans (by decide) h.1))]
  rfl

end Sys2Proof.Machine
end

section
/-! The identifier family (43_id_codec.md): the identifiers of the domain as 28-bit operands, `ENCODE` and `DECODE` as compositions of the
commands of the permutation and of the text codec, and the round trips that the two inherit. -/

namespace Sys2Proof.Machine

/-! ## Operands widened into other fields -/

theorem toInt_identifier (a : BitVec 28) : (a.setWidth 32).toInt = a.toNat := by
  rw [BitVec.toInt_setWidth, Int.bmod_eq_of_le (by omega) (by omega)]

theorem identifier_operand (a : BitVec 28) : (a.setWidth 32).setWidth 28 = a := by
  rw [BitVec.setWidth_setWidth_of_le a (by decide), BitVec.setWidth_eq]

/-- A response delivers one operand only. -/
theorem operand_inj {a b : BitVec 28} (h : Response.ok false (a.setWidth 48) = .ok false (b.setWidth 48)) : a = b := by
  rw [← number_toNat, ← number_toNat] at h
  exact BitVec.eq_of_toNat_eq (number_inj a.isLt b.isLt h)

/-- A result below 2^28 is an operand of the next command, widened. -/
theorem setWidth_operand {v : ResultWord} (hv : v.toNat < 2 ^ 28) : (v.setWidth 28).setWidth 48 = v := by
  apply BitVec.eq_of_toNat_eq
  rw [BitVec.toNat_setWidth_of_le (by decide), BitVec.toNat_setWidth, Nat.mod_eq_of_lt hv]

/-- A token is its six characters (R54). -/
theorem eq_of_resultChar {r r' : ResultWord} (h : ∀ k, k < 6 → resultChar r k = resultChar r' k) : r = r' := by
  apply BitVec.eq_of_getLsbD_eq
  intro i hi
  have hbit := congrArg (BitVec.getLsbD · (i % 8)) (h (i / 8) (by omega))
  simpa [resultChar, Nat.mod_lt, Nat.div_add_mod] using hbit

section Codec

variable {c : Cfg} (hc : c.Usable)
include hc

/-! ## `ENCODE` as `OBF`, then `ENC28` (R161) -/

/-- The identifiers of the domain are the 28-bit operands. -/
theorem exists_identifier {x : BitVec 32} (hin : ¬ (x.toInt < 0 ∨ (c.maxval : Int) < x.toInt)) :
    ∃ a : BitVec 28, x = a.setWidth 32 := by
  obtain ⟨-, -, hmax, -⟩ := Usable_sizes hc
  refine ⟨x.setWidth 28, ?_⟩
  apply BitVec.eq_of_toInt_eq
  have hx := BitVec.toInt_eq_toNat_cond x
  rw [toInt_identifier, BitVec.toNat_setWidth]
  omega

theorem encode_of_obf {a y : BitVec 28} (h : commandResponse c (.obf a) = .ok false (y.setWidth 48)) :
    commandResponse c (.encode (a.setWidth 32)) = commandResponse c (.enc28 y) := by
  obtain ⟨-, -, hmax, -⟩ := Usable_sizes hc
  have hy : obfuscate c a.toNat = y.toNat := number_inj (obfuscate_lt hc) y.isLt (h.trans (number_toNat y).symm)
  have hin : ¬ ((a.toNat : Int) < 0 ∨ (c.maxval : Int) < a.toNat) := by omega
  change encodeResponse c _ = enc28Response c y
  rw [encodeResponse, signedX, toInt_identifier, if_neg hin, Int.toNat_natCast, hy, enc28Response]

omit hc in
theorem encodeResponse_of_outside {x : BitVec 32} (h : x.toInt < 0 ∨ (c.maxval : Int) < x.toInt) :
    encodeResponse c x = .error .invalidArgument := if_pos h

/-- `ENCODE` answers `OK` to identifiers of the domain alone. -/
theorem identifier_of_encode {x : BitVec 32} {r : ResultWord} (h : commandResponse c (.encode x) = .ok false r) :
    ∃ a : BitVec 28, x = a.setWidth 32 := by
  by_cases hout : x.toInt < 0 ∨ (c.maxval : Int) < x.toInt
  · cases (encodeResponse_of_outside hout).symm.trans h
  · exact exists_identifier hc hout

/-! ## `DECODE` as `VAL28`, then `DEC28`, then `DEOBF` (R163) -/

section Decode

variable {len : BitVec 4} {str : BitVec 64} {v : ResultWord}

/-- The strict check accepts the strings of six characters that have a value, all of them below 28^6. -/
theorem value_of_validToken (h : validToken c len str = true) :
    len = 6 ∧ ∃ v : ResultWord, dec28Response c 6 str = .ok false v ∧ v.toNat < 28 ^ 6 := by
  obtain ⟨hlen, ds, hds⟩ := (validToken_iff hc).mp h
  obtain ⟨hsix, -⟩ := digits_chars_eq_some.mp hds
  have hlt := horner_lt hc ds (digits_lt hc hds)
  rw [hsix] at hlt
  refine ⟨hlen, _, dec28Response_of_digits (len := 6) (by decide) (by decide) hds, ?_⟩
  rwa [toNat_ofNat48 (hlt.trans (by norm_num))]

/-- What `DECODE` does with the value of six characters: its range, then the permutation. -/
theorem decodeResponse_of_value (h : dec28Response c 6 str = .ok false v) :
    decodeResponse c 6 str = if c.maxval < v.toNat then raise .malformedInput else number (deobfuscate c v.toNat) := by
  obtain ⟨-, -, -, -, -, hsix⟩ := Usable_sizes hc
  cases hds : digits c (chars 6 str) with
  | none =>
    obtain ⟨k, hk, hnone⟩ := digits_chars_eq_none.mp hds
    cases (dec28Response_of_nonSymbol (len := 6) (by decide) hk hnone).symm.trans h
  | some ds =>
    have hvalid : validToken c 6 str = true := (validToken_iff hc).mpr ⟨rfl, ds, hds⟩
    cases (dec28Response_of_digits (len := 6) (by decide) (by decide) hds).symm.trans h
    have hlt : horner c ds < 2 ^ 45 := horner_digits_lt hc (by decide) hds
    rw [decodeResponse, if_pos hvalid, hsix, hds, toNat_ofNat48 (hlt.trans (by norm_num))]

theorem decode_of_dec28 {y : BitVec 28} (h : commandResponse c (.dec28 6 str) = .ok false (y.setWidth 48)) :
    commandResponse c (.decode 6 str) = commandResponse c (.deobf y) := by
  obtain ⟨-, -, hmax, -⟩ := Usable_sizes hc
  have hresp := decodeResponse_of_value hc h
  rwa [BitVec.toNat_setWidth_of_le (by decide), if_neg (by omega)] at hresp

/-- `DECODE` answers `OK` to strings of six characters whose value is a 28-bit operand alone. -/
theorem value_of_decode (h : commandResponse c (.decode len str) = .ok false v) :
    len = 6 ∧ ∃ y : BitVec 28, commandResponse c (.dec28 6 str) = .ok false (y.setWidth 48) := by
  obtain ⟨-, -, hmax, -⟩ := Usable_sizes hc
  cases hvalid : validToken c len str with
  | false => cases (decodeResponse_of_not_validToken hvalid).symm.trans h
  | true =>
    obtain ⟨rfl, u, hu, -⟩ := value_of_validToken hc hvalid
    have hresp := (decodeResponse_of_value hc hu).symm.trans h
    split at hresp
    · cases hresp
    · exact ⟨rfl, u.setWidth 28, hu.trans (by rw [setWidth_operand (by omega)])⟩

end Decode

/-! ## Round trips (R162, R164) -/

/-- The token of an identifier decodes to it: `DEC28` undoes `ENC28` and `DEOBF` undoes `OBF`. -/
theorem token_decodes_to_identifier (a : BitVec 28) : ∃ r : ResultWord,
    commandResponse c (.encode (a.setWidth 32)) = .ok false r ∧
    commandResponse c (.decode 6 (r.setWidth 64)) = .ok false (a.setWidth 48) := by
  obtain ⟨y, hobf, hdeobf⟩ := deobf_undoes_obf hc a
  obtain ⟨htoken, -⟩ := textCodecRoundTrips c hc
  obtain ⟨r, henc, -, hdec⟩ := htoken y
  exact ⟨r, (encode_of_obf hc hobf).trans henc, (decode_of_dec28 hc hdec).trans hdeobf⟩

/-- A string with a 28-bit value decodes to an identifier, whose token is its upper-case form. -/
theorem string_encodes_to_upper {str : BitVec 64} {y : BitVec 28}
    (h : commandResponse c (.dec28 6 str) = .ok false (y.setWidth 48)) : ∃ (a : BitVec 28) (r : ResultWord),
      commandResponse c (.decode 6 str) = .ok false (a.setWidth 48) ∧
      commandResponse c (.encode (a.setWidth 32)) = .ok false r ∧
      ∀ k, k < 6 → resultChar r k = upper (charAt str k) := by
  obtain ⟨a, hdeobf, hobf⟩ := obf_undoes_deobf hc y
  obtain ⟨-, -, hupper, -⟩ := textCodecRoundTrips c hc
  obtain ⟨r, henc, hchars⟩ := hupper str y h
  exact ⟨a, r, (decode_of_dec28 hc h).trans hdeobf, (encode_of_obf hc hobf).trans henc, hchars⟩

theorem identifier_round_trip {x : BitVec 32} (hlo : 0 ≤ x.toInt) (hhi : x.toInt ≤ c.maxval) : ∃ r : ResultWord,
    commandResponse c (.encode x) = .ok false r ∧
    commandResponse c (.decode 6 (r.setWidth 64)) = .ok false (x.setWidth 48) := by
  obtain ⟨a, rfl⟩ := exists_identifier hc (by omega : ¬ (x.toInt < 0 ∨ (c.maxval : Int) < x.toInt))
  rw [BitVec.setWidth_setWidth (by decide)]
  exact token_decodes_to_identifier hc a

theorem encode_injective {x y : BitVec 32} {r : ResultWord} (hx : commandResponse c (.encode x) = .ok false r)
    (hy : commandResponse c (.encode y) = .ok false r) : x = y := by
  obtain ⟨a, rfl⟩ := identifier_of_encode hc hx
  obtain ⟨b, rfl⟩ := identifier_of_encode hc hy
  obtain ⟨_, ha, hdeca⟩ := token_decodes_to_identifier hc a
  obtain ⟨_, hb, hdecb⟩ := token_decodes_to_identifier hc b
  cases ha.symm.trans hx
  cases hb.symm.trans hy
  rw [operand_inj (hdeca.symm.trans hdecb)]

/-- The value of a token of `ENCODE` is a permuted identifier. -/
theorem dec28_of_encode {x : BitVec 32} {r : ResultWord} (h : commandResponse c (.encode x) = .ok false r) :
    ∃ y : BitVec 28, commandResponse c (.dec28 6 (r.setWidth 64)) = .ok false (y.setWidth 48) := by
  obtain ⟨a, rfl⟩ := identifier_of_encode hc h
  obtain ⟨_, ha, hdec⟩ := token_decodes_to_identifier hc a
  cases ha.symm.trans h
  exact (value_of_decode hc hdec).2

/-- A result made of symbols is its own upper-case form, so it is the token of the identifier it decodes to. -/
theorem exists_encode_of_symbols {r v : ResultWord} (hsym : ∀ k, k < 6 → resultChar r k ∈ c.alphabet)
    (hdec : commandResponse c (.dec28 6 (r.setWidth 64)) = .ok false v) (hv : v.toNat < 2 ^ 28) :
    ∃ x, commandResponse c (.encode x) = .ok false r := by
  obtain ⟨-, -, hfold⟩ := Usable_alphabet hc
  rw [← setWidth_operand hv] at hdec
  obtain ⟨a, r', -, henc, hchars⟩ := string_encodes_to_upper hc hdec
  have hr : r' = r := eq_of_resultChar fun k hk => by
    rw [hchars k hk, charAt_setWidth r hk, upper_of_not_lowerCase (hfold _ (hsym k hk))]
  exact ⟨a.setWidth 32, hr ▸ henc⟩

end Codec

/-! ## The obligations -/

/-- Settles O48: the range check, and inside the domain `ENCODE` of an operand is `ENC28` of what `OBF` answers. -/
theorem encodeChecksThenComposes : Obligations.EncodeChecksThenComposes := by
  refine ⟨fun s w rest x h => ?_, malformedIsInvalidArgument .encode⟩
  split
  · next hout => exact exec_of_response h (encodeResponse_of_outside hout)
  · next hin =>
    obtain ⟨a, rfl⟩ := exists_identifier h.1 hin
    obtain ⟨y, hobf, -⟩ := deobf_undoes_obf h.1 a
    rw [identifier_operand]
    exact ⟨y, _, exec_of_response h hobf, exec_of_response h rfl, exec_of_response h (encode_of_obf h.1 hobf)⟩

/-- Settles O49: the verdict of `VAL28` is the strict check, and the value of an accepted string is compared with `MAXVAL`. -/
theorem decodeChecksThenComposes : Obligations.DecodeChecksThenComposes := by
  refine ⟨fun s w rest len str h => ⟨fun hval => ?_, fun hval => ?_⟩, malformedIsInvalidArgument .decode⟩
  · exact exec_of_response h (decodeResponse_of_not_validToken (Response.ok.inj hval).1)
  · obtain ⟨rfl, v, hdec, hlt⟩ := value_of_validToken h.1 (Response.ok.inj hval).1
    refine ⟨v, exec_of_response h hdec, hlt, ?_⟩
    obtain ⟨-, -, hmax, -⟩ := Usable_sizes h.1
    split
    · next hover => exact exec_of_response h ((decodeResponse_of_value h.1 hdec).trans (if_pos hover))
    · next hin =>
      have hdec28 : commandResponse s.rom (.dec28 6 str) = .ok false ((v.setWidth 28).setWidth 48) := by
        rw [setWidth_operand (by omega)]
        exact hdec
      obtain ⟨r, hdeobf, -⟩ := obf_undoes_deobf h.1 (v.setWidth 28)
      exact ⟨r, exec_of_response h hdeobf, exec_of_response h ((decode_of_dec28 h.1 hdec28).trans hdeobf)⟩

/-- Settles O50, from the round trips of the permutation and of the text codec. -/
theorem identifierCodecRoundTrips : Obligations.IdentifierCodecRoundTrips := by
  refine fun c hc => ⟨fun x hlo hhi => identifier_round_trip hc hlo hhi, fun len str v h => ?_⟩
  obtain ⟨rfl, y, hdec⟩ := value_of_decode hc h
  obtain ⟨a, r, hdecode, hencode, hchars⟩ := string_encodes_to_upper hc hdec
  cases hdecode.symm.trans h
  rw [BitVec.setWidth_setWidth (by decide)]
  exact ⟨r, hencode, hchars⟩

/-- Settles O51: tokens decode to their identifiers, and six symbols of a 28-bit value are the token of what they decode to. -/
theorem encodeAnswersEachTokenOnce : Obligations.EncodeAnswersEachTokenOnce := by
  refine fun c hc => ⟨fun x hlo hhi => identifier_round_trip hc hlo hhi, fun x y r => encode_injective hc, fun r => ⟨?_, ?_⟩⟩
  · rintro ⟨x, hx⟩
    obtain ⟨-, -, hsymbols⟩ := tokenCopiesIntoAString
    obtain ⟨y, hdec⟩ := dec28_of_encode hc hx
    refine ⟨hsymbols c r hc (.inr ⟨x, hx⟩), _, hdec, ?_⟩
    rw [BitVec.toNat_setWidth_of_le (by decide)]
    exact y.isLt
  · rintro ⟨hsym, v, hdec, hv⟩
    exact exists_encode_of_symbols hc hsym hdec hv

end Sys2Proof.Machine
end

section
/-! The exception family (60_exceptions.md): the causes of an error, command by command, held to the responses in both directions; words
that are malformed for every opcode; the table of statuses. -/

namespace Sys2Proof.Machine

variable {c : Cfg} {i : Instr} {kind : ErrorKind} {w : CmdWord}

/-! ## The causes of an error response (R172, R174, R176) -/

/-- Why a command answers an error of a kind; the commands that are not named have no cause (R171). The literal bounds are those of
every usable constant set. -/
inductive ErrorCause (c : Cfg) : ErrorKind → Instr → Prop where
  | zeroDivisor (v : BitVec 45) : ErrorCause c .invalidArgument (.rem v 0)
  | outsideDomain {x : BitVec 32} (h : x.toInt < 0 ∨ 268435455 < x.toInt) : ErrorCause c .invalidArgument (.encode x)
  | aboveNative {v : BitVec 45} (h : 2147483647 < v.toNat) : ErrorCause c .invalidArgument (.cvt v)
  | longString {len : BitVec 4} {str : BitVec 64} (h : 8 < len.toNat) : ErrorCause c .invalidArgument (.dec28 len str)
  | emptyString (str : BitVec 64) : ErrorCause c .malformedInput (.dec28 0 str)
  | nonSymbol {len : BitVec 4} {str : BitVec 64} (hlen : len.toNat ≤ 8)
      (h : ∃ k, k < len.toNat ∧ index c (charAt str k) = none) : ErrorCause c .malformedInput (.dec28 len str)
  | notSixCharacters {len : BitVec 4} {str : BitVec 64} (h : len ≠ 6) : ErrorCause c .malformedInput (.decode len str)
  | notSixSymbols {len : BitVec 4} {str : BitVec 64} (h : ∃ k, k < 6 ∧ index c (charAt str k) = none) :
      ErrorCause c .malformedInput (.decode len str)
  | valueOutsideDomain {len : BitVec 4} {str : BitVec 64}
      (h : ∃ v, commandResponse c (.dec28 6 str) = .ok false v ∧ 268435455 < v.toNat) :
      ErrorCause c .malformedInput (.decode len str)

section Causes

variable {v : BitVec 45} {n : BitVec 29} {x : BitVec 32} {len : BitVec 4} {str : BitVec 64}

theorem remResponse_cause (h : remResponse v n = .error kind) : ErrorCause c kind (.rem v n) := by
  by_cases hn : n = 0
  · subst hn
    cases h
    exact .zeroDivisor v
  · cases (remResponse_of_ne_zero v hn).symm.trans h

theorem cvtResponse_cause (h : cvtResponse v = .error kind) : ErrorCause c kind (.cvt v) := by
  obtain hv | hv := Nat.lt_or_ge nativeMax v.toNat
  · cases (cvtResponse_of_lt hv).symm.trans h
    exact .aboveNative hv
  · cases (cvtResponse_of_le hv).symm.trans h

theorem dec28Response_cause (h : dec28Response c len str = .error kind) : ErrorCause c kind (.dec28 len str) := by
  obtain hlong | hlen := Nat.lt_or_ge 8 len.toNat
  · cases (dec28Response_of_long hlong str).symm.trans h
    exact .longString hlong
  by_cases hzero : len = 0
  · subst hzero
    cases h
    exact .emptyString str
  cases hds : digits c (chars len.toNat str) with
  | none =>
    obtain ⟨k, hk, hnone⟩ := digits_chars_eq_none.mp hds
    cases (dec28Response_of_nonSymbol hlen hk hnone).symm.trans h
    exact .nonSymbol hlen ⟨k, hk, hnone⟩
  | some ds =>
    have hpos : 0 < len.toNat := Nat.pos_of_ne_zero (BitVec.toNat_ne.mp hzero)
    cases (dec28Response_of_digits hpos hlen hds).symm.trans h

/-- The two ways to fail the strict check. -/
theorem validToken_eq_false (hc : c.Usable) :
    validToken c len str = false ↔ len ≠ 6 ∨ ∃ k, k < 6 ∧ index c (charAt str k) = none := by
  rw [Bool.eq_false_iff, Ne, validToken_iff_symbols hc, not_and_or]
  simp only [not_forall, not_not, exists_prop, ne_eq]

variable (hc : c.Usable)
include hc

theorem outside_iff : (x.toInt < 0 ∨ (c.maxval : Int) < x.toInt) ↔ (x.toInt < 0 ∨ 268435455 < x.toInt) := by
  obtain ⟨-, -, hmax, -⟩ := Usable_sizes hc
  rw [hmax]
  rfl

theorem encodeResponse_cause (h : encodeResponse c x = .error kind) : ErrorCause c kind (.encode x) := by
  by_cases hout : x.toInt < 0 ∨ (c.maxval : Int) < x.toInt
  · cases (encodeResponse_of_outside hout).symm.trans h
    exact .outsideDomain ((outside_iff hc).mp hout)
  · cases (if_neg hout).symm.trans h

theorem decodeResponse_cause (h : decodeResponse c len str = .error kind) : ErrorCause c kind (.decode len str) := by
  obtain ⟨-, -, hmax, -⟩ := Usable_sizes hc
  cases hvalid : validToken c len str with
  | false =>
    cases (decodeResponse_of_not_validToken hvalid).symm.trans h
    exact ((validToken_eq_false hc).mp hvalid).elim .notSixCharacters .notSixSymbols
  | true =>
    obtain ⟨rfl, u, hu, -⟩ := value_of_validToken hc hvalid
    have hresp := (decodeResponse_of_value hc hu).symm.trans h
    split at hresp
    · next hover =>
      cases hresp
      exact .valueOutsideDomain ⟨u, hu, by omega⟩
    · cases hresp

theorem commandResponse_cause (h : commandResponse c i = .error kind) : ErrorCause c kind i := by
  cases i with
  | mul | red28 | mulc | muli | ror | rol | xorm | obf | deobf | enc28 | val28 => cases h
  | rem v n => exact remResponse_cause h
  | cvt v => exact cvtResponse_cause h
  | dec28 len str => exact dec28Response_cause h
  | encode x => exact encodeResponse_cause hc h
  | decode len str => exact decodeResponse_cause hc h

theorem ErrorCause.response (h : ErrorCause c kind i) : commandResponse c i = .error kind := by
  obtain ⟨-, -, hmax, -⟩ := Usable_sizes hc
  cases h with
  | zeroDivisor v => exact remResponse_zero v
  | outsideDomain hout => exact encodeResponse_of_outside ((outside_iff hc).mpr hout)
  | aboveNative hv => exact cvtResponse_of_lt hv
  | longString hlong => exact dec28Response_of_long hlong _
  | emptyString str => exact dec28Response_of_empty str
  | nonSymbol hlen hsym =>
    obtain ⟨k, hk, hnone⟩ := hsym
    exact dec28Response_of_nonSymbol hlen hk hnone
  | notSixCharacters hne => exact decodeResponse_of_not_validToken ((validToken_eq_false hc).mpr (.inl hne))
  | notSixSymbols hsym => exact decodeResponse_of_not_validToken ((validToken_eq_false hc).mpr (.inr hsym))
  | @valueOutsideDomain len str hval =>
    by_cases hsix : len = 6
    · obtain ⟨u, hu, hover⟩ := hval
      subst hsix
      exact (decodeResponse_of_value hc hu).trans (if_pos (by omega))
    · exact decodeResponse_of_not_validToken ((validToken_eq_false hc).mpr (.inl hsix))

theorem commandResponse_eq_error : commandResponse c i = .error kind ↔ ErrorCause c kind i :=
  ⟨commandResponse_cause hc, ErrorCause.response hc⟩

/-- A word answers an error when it is malformed (R77 step 2) or its command has a cause. -/
theorem respond_eq_error : respond c w = .error kind ↔
    (kind = .invalidArgument ∧ ∃ e, decode w = .error e) ∨ ∃ i, decode w = .ok i ∧ ErrorCause c kind i := by
  cases hd : decode w with
  | error e =>
    rw [respond_of_decode_error c hd]
    simp [eq_comm]
  | ok i =>
    rw [respond_of_decode_ok c hd, commandResponse_eq_error hc]
    simp

theorem commandResponse_ok_of_no_cause (h : ∀ kind, ¬ ErrorCause c kind i) : ∃ flag r, commandResponse c i = .ok flag r := by
  cases hr : commandResponse c i with
  | ok flag r => exact ⟨flag, r, rfl⟩
  | error kind => exact absurd (commandResponse_cause hc hr) (h kind)

end Causes

/-! ## A malformed word for every opcode (R73, R77) -/

theorem formatMask_bit95 (f : Format) : (formatMask f).getLsbD 95 = true := by
  cases f <;> decide

/-- `CMD[95]` must be zero in every format, so a word that sets it is malformed whatever its opcode. -/
theorem decode_of_bit95 (h : w.getLsbD 95 = true) : decode w = .error (.mustBeZero (opcodeOf w)) := by
  refine decode_of_mustBeZero (opcodeNumber_opcodeOf w).symm fun hrow => ?_
  have hbit := congrArg (BitVec.getLsbD · 95) hrow
  rw [BitVec.getLsbD_and, h, formatMask_bit95, BitVec.getLsbD_setWidth, BitVec.getLsbD_of_ge _ 95 (by decide),
    Bool.and_false] at hbit
  cases hbit

/-- The word of opcode `op` with `CMD[95]` set and nothing else. -/
def wordBit95 (op : BitVec 4) : CmdWord := place 0 op ||| place 95 1#1

theorem wordBit95_opcode (op : BitVec 4) : (wordBit95 op).extractLsb 3 0 = op := by
  change (wordBit95 op).extractLsb' 0 4 = op
  rw [wordBit95, BitVec.extractLsb'_or, extract_place_same 0 op (by decide), extract_place_other 0 4 95 1#1 (by decide),
    BitVec.or_zero]

theorem wordBit95_bit95 (op : BitVec 4) : (wordBit95 op).getLsbD 95 = true := by
  rw [wordBit95, BitVec.getLsbD_or, getLsbD_place 95]
  exact Bool.or_true _

/-! ## The obligations -/

/-- Settles O16: a step on a pending word is `answer`, which is refused. -/
theorem illFormedConstantsAreRefused : Obligations.IllFormedConstantsAreRefused := by
  intro s w rest hp hill
  rw [step_eq_answer hp, answer_of_illFormed hill]

/-- Settles O53: the malformed words, and the causes of that kind. -/
theorem invalidArgumentCauses : Obligations.InvalidArgumentCauses := by
  intro c w hc
  rw [respond_eq_error hc]
  constructor
  · rintro (⟨-, he⟩ | ⟨i, hd, hcause⟩)
    · exact .inl he
    · cases hcause with
      | zeroDivisor v => exact .inr (.inl ⟨v, hd⟩)
      | outsideDomain h => exact .inr (.inr (.inl ⟨_, hd, h⟩))
      | aboveNative h => exact .inr (.inr (.inr (.inl ⟨_, hd, h⟩)))
      | longString h => exact .inr (.inr (.inr (.inr ⟨_, _, hd, h⟩)))
  · rintro (he | ⟨v, hd⟩ | ⟨x, hd, h⟩ | ⟨v, hd, h⟩ | ⟨len, str, hd, h⟩)
    · exact .inl ⟨rfl, he⟩
    · exact .inr ⟨_, hd, .zeroDivisor v⟩
    · exact .inr ⟨_, hd, .outsideDomain h⟩
    · exact .inr ⟨_, hd, .aboveNative h⟩
    · exact .inr ⟨_, hd, .longString h⟩

/-- Settles O54: the causes of that kind; a malformed word has the other. -/
theorem malformedInputCauses : Obligations.MalformedInputCauses := by
  intro c w hc
  rw [respond_eq_error hc]
  constructor
  · rintro (⟨hkind, -⟩ | ⟨i, hd, hcause⟩)
    · cases hkind
    · cases hcause with
      | emptyString str => exact .inl ⟨_, _, hd, .inl rfl⟩
      | nonSymbol hlen h => exact .inl ⟨_, _, hd, .inr ⟨hlen, h⟩⟩
      | notSixCharacters h => exact .inr ⟨_, _, hd, .inl h⟩
      | notSixSymbols h => exact .inr ⟨_, _, hd, .inr (.inl h)⟩
      | valueOutsideDomain h => exact .inr ⟨_, _, hd, .inr (.inr h)⟩
  · rintro (⟨len, str, hd, rfl | ⟨hlen, h⟩⟩ | ⟨len, str, hd, h | h | h⟩)
    · exact .inr ⟨_, hd, .emptyString str⟩
    · exact .inr ⟨_, hd, .nonSymbol hlen h⟩
    · exact .inr ⟨_, hd, .notSixCharacters h⟩
    · exact .inr ⟨_, hd, .notSixSymbols h⟩
    · exact .inr ⟨_, hd, .valueOutsideDomain h⟩

/-- Settles O55: the dashes of the table have no cause, each `x` is evaluated, and `CMD[95]` makes a word of any opcode malformed. -/
theorem statusTable : Obligations.StatusTable := by
  refine ⟨fun c i hc => ?_, ⟨100, 7, by decide⟩, ⟨100, 0, by decide⟩, ⟨0, by decide⟩, ⟨2147483648, by decide⟩,
    ⟨0, by decide⟩, ⟨-1, by decide⟩, ⟨1, 0x43, by decide⟩, ⟨9, 0, by decide⟩, ⟨0, 0, by decide⟩,
    ⟨6, 0x4838_56504E50, by decide⟩, ⟨0, 0, by decide⟩, fun op => ?_⟩
  · cases i with
    | mul | red28 | mulc | muli | ror | rol | xorm | obf | deobf | enc28 | val28 =>
      exact commandResponse_ok_of_no_cause hc nofun
    | rem | cvt | encode | decode => exact fun h => nomatch commandResponse_cause hc h
    | dec28 => trivial
  · have hd := decode_of_bit95 (wordBit95_bit95 op)
    exact ⟨wordBit95 op, wordBit95_opcode op, ⟨_, hd⟩, congrArg readStatus (respond_of_decode_error base28 hd)⟩

end Sys2Proof.Machine
end

section
/-! The reset and hazards family (70_reset_and_hazards.md): under a usable constant set every step answers, a presented word gets one
response, a reset needs a quiet block, and the power-on self-test. -/

namespace Sys2Proof.Machine

variable {c : Cfg}

/-! ## The self-test: the multiplicative constants undo each other, and a token decodes to its identifier (R130, R193) -/

theorem respond_encode (c : Cfg) (i : Instr) : respond c (encode i) = commandResponse c i :=
  respond_of_decode_ok c (decode_encode i)

theorem mulInverse_coprime (hc : c.Usable) : mulInverse c c.coprime = 1 := by
  rw [← mulForward_one hc, mulInverse_mulForward hc (by norm_num)]

theorem mulForward_inverse (hc : c.Usable) : mulForward c c.inverse = 1 := by
  rw [← mulInverse_one hc, mulForward_mulInverse hc (by norm_num)]

/-- `ENCODE` of 1 under the shipped constants answers the token `PNPV8H`. -/
theorem encode_one_token : commandResponse base28 (.encode 1) = .ok false 0x4838_56504E50 := by decide

theorem decode_encode_one_token : commandResponse base28 (.decode 6 0x4838_56504E50) = .ok false 1 := by
  obtain ⟨r, hencode, hdecode⟩ := identifier_round_trip base28_usable (x := 1) (by decide) (by decide)
  cases hencode.symm.trans encode_one_token
  exact hdecode

/-! ## The obligations -/

/-- Settles O10: a step with nothing pending is idle, and otherwise the block is ready for the oldest word. -/
theorem usableBlockNeverStops : Obligations.UsableBlockNeverStops := by
  intro s hc
  cases hp : s.pending with
  | nil => exact ⟨s, step_of_empty hp⟩
  | cons w rest => exact ⟨afterAnswer s rest (respond s.rom w), step_of_ready ⟨hc, hp⟩⟩

/-- Settles O13: the presented word is the only one pending, and its response the only one on the port. -/
theorem presentedWordGetsOneResponse : Obligations.PresentedWordGetsOneResponse := by
  rintro s w hc ⟨hp, ha⟩
  have hready : Ready (present w s) w [] := ⟨hc, by rw [present_pending, hp, List.nil_append]⟩
  rw [step_of_ready hready]
  simp only [afterAnswer, present_rom, present_answered, ha, hp, List.nil_append]

/-- Settles O15, by the two cases of the check that nothing is outstanding. -/
theorem hostResetOnlyWhenQuiet : Obligations.HostResetOnlyWhenQuiet :=
  ⟨fun _ hquiet => if_pos hquiet, fun _ hbusy => if_neg hbusy⟩

/-- Settles O52: each word answers as its command, the multiplications by cancellation and `DECODE` by the round trip. -/
theorem selfTestCommands : Obligations.SelfTestCommands := by
  obtain ⟨-, -, -, -, -, -, hdecode, -⟩ := specWordsDecode
  refine ⟨?_, ?_, ?_, ?_⟩
  · rw [respond_encode]
    exact congrArg number (mulInverse_coprime base28_usable)
  · rw [respond_encode]
    exact congrArg number (mulForward_inverse base28_usable)
  · rw [respond_encode, encode_one_token]
    rfl
  · rw [respond_of_decode_ok base28 hdecode, decode_encode_one_token]

end Sys2Proof.Machine
end
